-- ==== Sys2Proof/Word.lean ====
section
/-! DEFINITION. The one word type of the hardware: the byte (spec 00_scope.md R7, R9). -/

namespace Sys2Proof

/-- An 8-bit value 0..255: a register, a memory cell, the program counter, an address (R7, R9). -/
abbrev Byte := BitVec 8

end Sys2Proof
end

