-- ==== Sys2Proof/Syntax.lean ====
section
/-! DEFINITION. The thirteen instructions as syntax (spec 00_scope.md R2, 30_encoding.md R81, R82). -/

namespace Sys2Proof

/-- The thirteen mnemonics; the set is closed (00_scope.md R2). -/
inductive Mnemonic where
  | ldi | prn | add | mul | push | pop | call | ret | cmp | jeq | jne | jmp | hlt
  deriving DecidableEq, Repr

/-- The four instruction formats (30_encoding.md R81). -/
inductive Format where
  /-- `OP`: the opcode alone. -/
  | op
  /-- `OP_R`: opcode and one register operand byte. -/
  | opR
  /-- `OP_R_R`: opcode and two register operand bytes. -/
  | opRR
  /-- `OP_R_I`: opcode, one register operand byte and an immediate byte. -/
  | opRI
  deriving DecidableEq, Repr

/-- An instruction with its operand bytes AS THEY STAND in memory (30_encoding.md R82). A register operand is a whole
byte, legal only when it is 0..7; the values 8..255 are kept, because the machine executes such an instruction and takes
`InvalidRegisterFault` (R84). `Instr.wf` says when all register operands are legal. -/
inductive Instr where
  | ldi (r v : Byte)
  | prn (r : Byte)
  | add (a b : Byte)
  | mul (a b : Byte)
  | push (r : Byte)
  | pop (r : Byte)
  | call (r : Byte)
  | ret
  | cmp (a b : Byte)
  | jeq (r : Byte)
  | jne (r : Byte)
  | jmp (r : Byte)
  | hlt
  deriving DecidableEq, Repr

end Sys2Proof
end

