-- ==== Sys2Proof/Config.lean ====
section
/-! DEFINITION. What is fixed for the machine, and the parameters it takes (spec 00_scope.md R7, R8). The default opcode
values stand in Decode.lean. The spec leaves no result of an instruction open, so there is no free value here. -/

namespace Sys2Proof

/-- `OPC`: the opcode byte of each instruction, configuration and not state (00_scope.md R8, 10_state.md R21). -/
abbrev OpcodeMap := Mnemonic → Byte

/-- The one property the semantics need of `OPC`: the thirteen values are pairwise distinct (00_scope.md R8). -/
def OpcodeMap.Distinct (opc : OpcodeMap) : Prop := ∀ m m' : Mnemonic, opc m = opc m' → m = m'

namespace Config

/-- `MEM_SIZE` (00_scope.md R7). -/
abbrev memSize : Nat := 256

/-- `SP_INDEX`: the register that is the stack pointer (00_scope.md R7, 10_state.md R22). -/
abbrev spIndex : Fin 8 := 7

/-- `SP_RESET` (00_scope.md R7). -/
def spReset : Byte := 0xF4#8

/-- `PC_RESET` (00_scope.md R7). -/
def pcReset : Byte := 0#8

/-- `EXIT_FAULT`, a host parameter with default 1 (00_scope.md R8). PRESUMED, log 14: the source says only "non-zero". -/
def exitFault : Nat := 1

end Config

end Sys2Proof
end

