-- ==== Sys2Proof/Decode.lean ====
section
/-! DEFINITION. The default opcode values, the decoder (total on any bytes) and the encoder (spec 30_encoding.md). -/

namespace Sys2Proof

/-- The default `OPC` of 30_encoding.md R90. PRESUMED (log 1): the spec marks the thirteen numbers as general knowledge;
everything below but `decode`, `decodeTableWord` and `step` takes the map as an argument. -/
def defaultOpc : OpcodeMap
  | .ldi => 0x82#8
  | .prn => 0x47#8
  | .add => 0xA0#8
  | .mul => 0xA2#8
  | .push => 0x45#8
  | .pop => 0x46#8
  | .call => 0x50#8
  | .ret => 0x11#8
  | .cmp => 0xA7#8
  | .jeq => 0x55#8
  | .jne => 0x56#8
  | .jmp => 0x54#8
  | .hlt => 0x01#8

/-- Every mnemonic once: the keys of the dispatch table (00_scope.md R2). -/
def mnemonics : List Mnemonic :=
  [.ldi, .prn, .add, .mul, .push, .pop, .call, .ret, .cmp, .jeq, .jne, .jmp, .hlt]

/-- The format of each instruction (30_encoding.md R82). -/
def Mnemonic.format : Mnemonic → Format
  | .ldi => .opRI
  | .prn => .opR
  | .add => .opRR
  | .mul => .opRR
  | .push => .opR
  | .pop => .opR
  | .call => .opR
  | .ret => .op
  | .cmp => .opRR
  | .jeq => .opR
  | .jne => .opR
  | .jmp => .opR
  | .hlt => .op

/-- The length in bytes of a format (30_encoding.md R81). -/
def Format.length : Format → Nat
  | .op => 1
  | .opR => 2
  | .opRR => 3
  | .opRI => 3

/-- The mnemonic of an instruction. -/
def Instr.mnemonic : Instr → Mnemonic
  | .ldi _ _ => .ldi
  | .prn _ => .prn
  | .add _ _ => .add
  | .mul _ _ => .mul
  | .push _ => .push
  | .pop _ => .pop
  | .call _ => .call
  | .ret => .ret
  | .cmp _ _ => .cmp
  | .jeq _ => .jeq
  | .jne _ => .jne
  | .jmp _ => .jmp
  | .hlt => .hlt

/-- The length of an instruction: a function of its opcode alone (30_encoding.md R80, R82). -/
def Instr.length (i : Instr) : Nat := i.mnemonic.format.length

/-- Why bytes decode to no instruction. -/
inductive DecodeError where
  /-- The first byte is the opcode of none of the thirteen (30_encoding.md R93). -/
  | unknownOpcode (b : Byte)
  /-- The bytes end before the opcode's last operand byte (30_encoding.md R85, check 2). -/
  | truncated
  deriving DecidableEq, Repr

/-- The dispatch table's look-up: the whole byte is compared, all 8 bits (30_encoding.md R80, R83). -/
def lookupOpcode (opc : OpcodeMap) (b : Byte) : Option Mnemonic :=
  mnemonics.find? fun m => opc m == b

/-- Takes one operand byte (format `OP_R`). -/
def takeOne (f : Byte → Instr) : List Byte → Except DecodeError (Instr × List Byte)
  | r :: rest => .ok (f r, rest)
  | [] => .error .truncated

/-- Takes two operand bytes, first operand first (formats `OP_R_R` and `OP_R_I`). -/
def takeTwo (f : Byte → Byte → Instr) : List Byte → Except DecodeError (Instr × List Byte)
  | a :: b :: rest => .ok (f a b, rest)
  | _ => .error .truncated

/-- The operands that follow the opcode, in the order of 30_encoding.md R82. -/
def decodeOperands (m : Mnemonic) (rest : List Byte) : Except DecodeError (Instr × List Byte) :=
  match m with
  | .ldi => takeTwo .ldi rest
  | .prn => takeOne .prn rest
  | .add => takeTwo .add rest
  | .mul => takeTwo .mul rest
  | .push => takeOne .push rest
  | .pop => takeOne .pop rest
  | .call => takeOne .call rest
  | .ret => .ok (.ret, rest)
  | .cmp => takeTwo .cmp rest
  | .jeq => takeOne .jeq rest
  | .jne => takeOne .jne rest
  | .jmp => takeOne .jmp rest
  | .hlt => .ok (.hlt, rest)

/-- The decoder under the opcode map `opc`: the instruction at the front of the bytes and the bytes after it, or why
there is none. The opcode is looked up before any operand byte is asked for (30_encoding.md R83, R85). -/
def decodeWith (opc : OpcodeMap) : List Byte → Except DecodeError (Instr × List Byte)
  | [] => .error .truncated
  | b :: rest =>
    match lookupOpcode opc b with
    | none => .error (.unknownOpcode b)
    | some m => decodeOperands m rest

/-- The decoder under the default opcode values. -/
def decode : List Byte → Except DecodeError (Instr × List Byte) := decodeWith defaultOpc

/-- The encoder under the opcode map `opc`: opcode lowest, then the operands in assembly order (30_encoding.md R81, R82;
20_memory.md R55). -/
def encodeWith (opc : OpcodeMap) : Instr → List Byte
  | .ldi r v => [opc .ldi, r, v]
  | .prn r => [opc .prn, r]
  | .add a b => [opc .add, a, b]
  | .mul a b => [opc .mul, a, b]
  | .push r => [opc .push, r]
  | .pop r => [opc .pop, r]
  | .call r => [opc .call, r]
  | .ret => [opc .ret]
  | .cmp a b => [opc .cmp, a, b]
  | .jeq r => [opc .jeq, r]
  | .jne r => [opc .jne, r]
  | .jmp r => [opc .jmp, r]
  | .hlt => [opc .hlt]

/-- The encoder under the default opcode values. -/
def encode : Instr → List Byte := encodeWith defaultOpc

/-- Byte `k` of an instruction whose bits are `w`, bits above `nbits` being 0: bits `8k+7 .. 8k`, byte 0 being the byte
at the lowest address. -/
def tableByte (nbits w k : Nat) : Byte := BitVec.ofNat 8 ((w % 2 ^ nbits) >>> (8 * k))

/-- The three bytes of an opcode-table word, operand bytes beyond the table's bits being zero; three bytes is the longest
instruction (30_encoding.md R80). -/
def tableBytes (nbits w : Nat) : List Byte :=
  [tableByte nbits w 0, tableByte nbits w 1, tableByte nbits w 2]

/-- What the decoder reads from an opcode-table word. -/
def decodeTableWord (nbits w : Nat) : Option Instr :=
  match decode (tableBytes nbits w) with
  | .ok (i, _) => some i
  | .error _ => none

end Sys2Proof
end

