-- ==== Sys2Proof/Machine/State.lean ====
section
/-! DEFINITION. The whole architectural state as plain data, the reasons to stop, and the state after reset
(spec 10_state.md). -/

namespace Sys2Proof.Machine

/-- The three flags of the flag register; there is no packed byte (10_state.md R28). -/
structure Flags where
  /-- `FL.L`, Less-Than. -/
  l : Bool
  /-- `FL.G`, Greater-Than. -/
  g : Bool
  /-- `FL.E`, Equal. -/
  e : Bool
  deriving DecidableEq, Repr

/-- The state of the dispatch loop (10_state.md R30). -/
inductive Status where
  | running | halted | faulted
  deriving DecidableEq, Repr

/-- The four faults of the hardware (60_exceptions.md R181). They are the machine's OWN faults: taking one is a next
state (R188), not a stop of the model. `fault_cause` = None (code 0) is `none` of `Option FaultCause`. -/
inductive FaultCause where
  /-- Code 1: the byte at pc is no opcode (R182). -/
  | unknownOpcode
  /-- Code 2: an ALU operator that is not defined (R185); unreachable (41_alu.md R125). -/
  | unsupportedOperation
  /-- Code 3: an address the instruction forms is below 0 or above 255 (R183). -/
  | outOfBounds
  /-- Code 4: a register operand byte is greater than 7 (R184). -/
  | invalidRegister
  deriving DecidableEq, Repr

/-- The 256 memory cells as a list of (address, byte) pairs in one canonical form (`Memory.wf`, Machine/Ops.lean);
an address not listed holds `Memory.unlisted`. -/
structure Memory where
  cells : List Host.Cell
  deriving DecidableEq, Repr

/-- The complete architectural state (10_state.md R20). -/
structure State where
  /-- `x[0]` .. `x[7]`; `x[7]` is the stack pointer (R22). -/
  regs : Vector Byte 8
  /-- `pc` (R25). -/
  pc : Byte
  /-- `FL` (R28). -/
  fl : Flags
  /-- `status` (R30). -/
  status : Status
  /-- `fault_cause` (R31). -/
  faultCause : Option FaultCause
  /-- `fault_pc` (R31). -/
  faultPc : Byte
  /-- `fault_opcode` (R31). -/
  faultOpcode : Byte
  /-- `M[0]` .. `M[255]` (R34). -/
  mem : Memory
  /-- `out`, oldest byte first (R33). -/
  out : List Byte
  deriving DecidableEq, Repr

/-- Why `step` has no next state. -/
inductive Fault where
  /-- Raised by `step` when `status` is Halted: no step exists (44_halt_and_cycle.md R170, R174). Safe: the spec says so. -/
  | halted
  /-- Raised by `step` when `status` is Faulted: no step exists (44_halt_and_cycle.md R170, R174). Safe: the spec says so. -/
  | faulted
  deriving DecidableEq, Repr

/-- What the model would refuse. -/
inductive Refusal where
  /-- Raised by an arm of `exec` whose instruction has no meaning yet. No arm raises it: all thirteen are modelled. Safe. -/
  | notModelled (mnemonic : String)
  deriving DecidableEq, Repr

/-- The machine right after reset (10_state.md R35, R36; 70_reset_and_hazards.md R211): pc 0, R7 = 0xF4, flags false,
Running, no fault, no output. R0 to R6 = 0 (R36, PRESUMED, log 3). `fault_pc` and `fault_opcode` = 0 (unspecified by the
spec, DESIGN CHOICE, log 4). Memory lists nothing: the `IMAGE` of the loader's zero fill with no program (PRESUMED,
log 2); `applyReset` gives the state for any other `IMAGE`. -/
def State.reset : State where
  regs := #v[0#8, 0#8, 0#8, 0#8, 0#8, 0#8, 0#8, Config.spReset]
  pc := Config.pcReset
  fl := ⟨false, false, false⟩
  status := .running
  faultCause := none
  faultPc := 0#8
  faultOpcode := 0#8
  mem := ⟨[]⟩
  out := []

end Sys2Proof.Machine
end

