-- ==== Sys2Proof/Machine/Ops.lean ====
section
/-! DEFINITION. The named operations every meaning is written with: memory, registers, exact address arithmetic, taking a
fault, and how a rule that may raise a fault becomes an outcome (spec 00_scope.md R10 to R15; 60_exceptions.md R188). -/

namespace Sys2Proof.Machine

/-! ### Memory (20_memory.md) -/

/-- What a cell not listed holds: the loader's fill 0x00 (70_reset_and_hazards.md R219). PRESUMED, log 2. -/
def Memory.unlisted : Byte := 0#8

/-- The canonical form: addresses strictly rising and inside 0..255, and no entry equal to what an unlisted address
holds. -/
abbrev Memory.wf (m : Memory) : Prop :=
  m.cells.Pairwise (fun c d => c.1 < d.1) ∧ ∀ c ∈ m.cells, c.1 < Config.memSize ∧ c.2 ≠ Memory.unlisted

/-- The byte listed at address `a`, or the unlisted value. -/
def readCells (a : Nat) : List Host.Cell → Byte
  | [] => Memory.unlisted
  | (b, w) :: rest => if b = a then w else readCells a rest

/-- `MemRead(addr, 1)` (00_scope.md R11): every 8-bit address has a cell (20_memory.md R50), so it never faults. -/
def Memory.read (m : Memory) (a : Byte) : Byte := readCells a.toNat m.cells

/-- Drops what is listed at address `a`. -/
def eraseCell (a : Nat) (cells : List Host.Cell) : List Host.Cell := cells.filter fun c => c.1 != a

/-- Puts an entry in its place by address. -/
def insertCell (a : Nat) (v : Byte) : List Host.Cell → List Host.Cell
  | [] => [(a, v)]
  | (b, w) :: rest => if a < b then (a, v) :: (b, w) :: rest else (b, w) :: insertCell a v rest

/-- `MemWrite(addr, 1, v)` (00_scope.md R11): changes the addressed cell only (20_memory.md R57). -/
def Memory.write (m : Memory) (a : Byte) (v : Byte) : Memory :=
  ⟨if v = Memory.unlisted then eraseCell a.toNat m.cells
    else insertCell a.toNat v (eraseCell a.toNat m.cells)⟩

/-! ### Registers, flags, pc, output (00_scope.md R10, R14) -/

/-- `x[i]`. No register is hard-wired (10_state.md R22). -/
def State.readReg (s : State) (i : Fin 8) : Byte := s.regs[i]

/-- `x[i] <- v`; index 7 is the stack pointer with no special case (10_state.md R22). -/
def State.writeReg (s : State) (i : Fin 8) (v : Byte) : State := { s with regs := s.regs.set i v }

/-- `SP`, a second spelling of `x[7]` (10_state.md R22). -/
def State.sp (s : State) : Byte := s.readReg Config.spIndex

/-- `pc <- target`. -/
def State.withPc (s : State) (target : Byte) : State := { s with pc := target }

/-- `FL <- (l, g, e)`. -/
def State.withFlags (s : State) (fl : Flags) : State := { s with fl := fl }

/-- `MemWrite(a, 1, v)` as an update of the state. -/
def State.store (s : State) (a v : Byte) : State := { s with mem := s.mem.write a v }

/-- `emit(v)`: `out <- out ++ [v]` (00_scope.md R14). -/
def State.emit (s : State) (v : Byte) : State := { s with out := s.out ++ [v] }

/-- `status <- Halted` (44_halt_and_cycle.md R165). -/
def State.halt (s : State) : State := { s with status := .halted }

/-! ### Address arithmetic (20_memory.md R59) -/

/-- An address formed by the control logic as an exact integer: `OutOfBoundsFault` outside 0..255, never a wrap. -/
def formAddress (n : Int) : Except FaultCause Byte :=
  if 0 ≤ n ∧ n ≤ 255 then .ok (BitVec.ofNat 8 n.toNat) else .error .outOfBounds

/-! ### Taking a fault (60_exceptions.md) -/

/-- The numeric cause codes (60_exceptions.md R181). -/
def FaultCause.code : FaultCause → Nat
  | .unknownOpcode => 1
  | .unsupportedOperation => 2
  | .outOfBounds => 3
  | .invalidRegister => 4

/-- `fault_cause` as its number, 0 for None (60_exceptions.md R181). -/
def State.faultCode (s : State) : Nat :=
  match s.faultCause with
  | none => 0
  | some c => c.code

/-- Fault entry: exactly these four writes (60_exceptions.md R188). There is no return from a fault (R191): no operation
of the model undoes this but `applyReset`. -/
def takeFault (c : FaultCause) (s : State) : State :=
  { s with
    status := .faulted
    faultCause := some c
    faultPc := s.pc
    faultOpcode := s.mem.read s.pc }

/-- The end of an instruction rule run in state `s`: the state it computed, or, when it raised a fault, fault entry from
`s` itself, so a faulting instruction has no other effect (00_scope.md R13, 60_exceptions.md R190). -/
def complete (s : State) (r : Except FaultCause State) : Host.Outcome State Fault Refusal :=
  match r with
  | .ok t => .next t
  | .error c => .next (takeFault c s)

end Sys2Proof.Machine
end

