-- ==== Sys2Proof/Machine/Operands.lean ====
section
/-! DEFINITION. The operand forms of the instructions, the stack's one addressing mode and the ALU's arithmetic
(spec 00_scope.md R12, R15; 41_alu.md R120; 42_stack.md R134). Each may raise a fault; none writes state. -/

namespace Sys2Proof.Machine

/-- The address of operand byte `k` of the instruction at pc: `OutOfBoundsFault` if `pc + k > 255` (00_scope.md R12). The
byte itself is already in the decoded instruction: the fetch read it at this address. -/
def operandAddress (s : State) (k : Nat) : Except FaultCause Byte := formAddress (s.pc.toNat + k)

/-- `RegIndex(b)`: all 8 bits are checked; a byte above 7 is `InvalidRegisterFault` (00_scope.md R12, 30_encoding.md
R84). -/
def regIndex (b : Byte) : Except FaultCause (Fin 8) :=
  if h : b.toNat < 8 then .ok ⟨b.toNat, h⟩ else .error .invalidRegister

/-- `NextPc(w)`: the sequential next pc, never wrapped (00_scope.md R15, 10_state.md R27). -/
def nextPc (s : State) (w : Nat) : Except FaultCause Byte := formAddress (s.pc.toNat + w)

/-- The operand of a format `OP_R` instruction: its address is formed, then its value is checked (30_encoding.md R85). -/
def oneReg (s : State) (rb : Byte) : Except FaultCause (Fin 8) := do
  let _ ← operandAddress s 1
  regIndex rb

/-- The operands of a format `OP_R_R` instruction: both addresses are formed before either value is checked, then the
first is checked, then the second (30_encoding.md R85). -/
def twoRegs (s : State) (ab bb : Byte) : Except FaultCause (Fin 8 × Fin 8) := do
  let _ ← operandAddress s 1
  let _ ← operandAddress s 2
  let a ← regIndex ab
  let b ← regIndex bb
  pure (a, b)

/-- The register operand of a format `OP_R_I` instruction; the immediate is used as it stands (30_encoding.md R87). -/
def regAndImm (s : State) (rb : Byte) : Except FaultCause (Fin 8) := do
  let _ ← operandAddress s 1
  let _ ← operandAddress s 2
  regIndex rb

/-- The decremented stack pointer: the address PUSH and CALL store to, and their new SP (42_stack.md R134, R135). -/
def pushAddress (s : State) : Except FaultCause Byte := formAddress ((s.sp.toNat : Int) - 1)

/-- A stack pointer incremented by POP or RET (42_stack.md R136, 43_control_transfer.md R146). -/
def incrementedSp (sp : Byte) : Except FaultCause Byte := formAddress (sp.toNat + 1)

/-- The operators that reach the ALU (41_alu.md R120). -/
inductive AluOp where
  | add | mul | cmp
  deriving DecidableEq, Repr

/-- The ALU's binary arithmetic family: the 8-bit result, wrapped (41_alu.md R121, R122, R124). An operator that is not
of this family is `UnsupportedOperationFault` (R125); no instruction asks for one (log 12). -/
def aluArith (op : AluOp) (x y : Byte) : Except FaultCause Byte :=
  match op with
  | .add => .ok (BitVec.ofNat 8 (x.toNat + y.toNat))
  | .mul => .ok (BitVec.ofNat 8 (x.toNat * y.toNat))
  | .cmp => .error .unsupportedOperation

end Sys2Proof.Machine
end

