-- ==== Sys2Proof/Machine/Flags.lean ====
section
/-! DEFINITION. The one flag computation of the hardware: CMP's (spec 41_alu.md R123; 10_state.md R29). -/

namespace Sys2Proof.Machine

/-- All three flags from the unsigned comparison of two bytes, exactly one of them true (41_alu.md R123). The direction of
Less-Than and Greater-Than is the reading R123 takes from general knowledge: PRESUMED, log 10. -/
def compareFlags (x y : Byte) : Flags :=
  if x.toNat = y.toNat then ⟨false, false, true⟩
  else if x.toNat < y.toNat then ⟨true, false, false⟩
  else ⟨false, true, false⟩

/-- The ALU's comparison family (41_alu.md R120). An operator that is not of this family is `UnsupportedOperationFault`
(R125); no instruction asks for one (log 12). -/
def aluCompare (op : AluOp) (x y : Byte) : Except FaultCause Flags :=
  match op with
  | .cmp => .ok (compareFlags x y)
  | .add => .error .unsupportedOperation
  | .mul => .error .unsupportedOperation

end Sys2Proof.Machine
end

