-- ==== Sys2Proof/Machine/Alu.lean ====
section
/-! DEFINITION. The meanings of ADD, MUL and CMP (spec 41_alu.md). -/

namespace Sys2Proof.Machine

/-- A binary arithmetic instruction: `x[a] <- x[a] op x[b]`, wrapped (41_alu.md R120). -/
def arithmetic (op : AluOp) (ab bb : Byte) (s : State) : Except FaultCause State := do
  let (a, b) ← twoRegs s ab bb
  let n ← nextPc s 3
  let v ← aluArith op (s.readReg a) (s.readReg b)
  pure ((s.writeReg a v).withPc n)

/-- ADD a, b (41_alu.md R121). -/
def execAdd (ab bb : Byte) (s : State) : Host.Outcome State Fault Refusal :=
  complete s (arithmetic .add ab bb s)

/-- MUL a, b (41_alu.md R122). -/
def execMul (ab bb : Byte) (s : State) : Host.Outcome State Fault Refusal :=
  complete s (arithmetic .mul ab bb s)

/-- CMP a, b (41_alu.md R123). -/
def execCmp (ab bb : Byte) (s : State) : Host.Outcome State Fault Refusal :=
  complete s do
    let (a, b) ← twoRegs s ab bb
    let n ← nextPc s 3
    let fl ← aluCompare .cmp (s.readReg a) (s.readReg b)
    pure ((s.withFlags fl).withPc n)

end Sys2Proof.Machine
end

