-- ==== Sys2Proof/Machine/Control.lean ====
section
/-! DEFINITION. The meanings of CALL, RET, JEQ, JNE and JMP (spec 43_control_transfer.md). -/

namespace Sys2Proof.Machine

/-- CALL's return address pc + 2, the address after its one operand byte (43_control_transfer.md R145, conflict C1). -/
def returnAddress (s : State) : Except FaultCause Byte := formAddress (s.pc.toNat + 2)

/-- CALL r (43_control_transfer.md R145): the target is read after the push, so `CALL R7` jumps to the new stack
pointer. -/
def execCall (rb : Byte) (s : State) : Host.Outcome State Fault Refusal :=
  complete s do
    let r ← oneReg s rb
    let ra ← returnAddress s
    let a ← pushAddress s
    let s' := (s.writeReg Config.spIndex a).store a ra
    pure (s'.withPc (s'.readReg r))

/-- RET (43_control_transfer.md R146). -/
def execRet (s : State) : Host.Outcome State Fault Refusal :=
  complete s do
    let v := s.mem.read s.sp
    let sp' ← incrementedSp s.sp
    pure ((s.withPc v).writeReg Config.spIndex sp')

/-- A conditional jump: the operand is decoded before the condition is looked at, and the sequential next pc is formed
only when the jump is not taken (43_control_transfer.md R147, R148). -/
def jumpIf (taken : Bool) (rb : Byte) (s : State) : Except FaultCause State := do
  let r ← oneReg s rb
  if taken then pure (s.withPc (s.readReg r))
  else
    let n ← nextPc s 2
    pure (s.withPc n)

/-- JEQ r (43_control_transfer.md R147): taken when `FL.E`. -/
def execJeq (rb : Byte) (s : State) : Host.Outcome State Fault Refusal :=
  complete s (jumpIf s.fl.e rb s)

/-- JNE r (43_control_transfer.md R148): taken when not `FL.E`. -/
def execJne (rb : Byte) (s : State) : Host.Outcome State Fault Refusal :=
  complete s (jumpIf (!s.fl.e) rb s)

/-- JMP r (43_control_transfer.md R149). -/
def execJmp (rb : Byte) (s : State) : Host.Outcome State Fault Refusal :=
  complete s do
    let r ← oneReg s rb
    pure (s.withPc (s.readReg r))

end Sys2Proof.Machine
end

