-- ==== Sys2Proof/Machine/DataMove.lean ====
section
/-! DEFINITION. The meanings of LDI and PRN (spec 40_load_and_print.md). -/

namespace Sys2Proof.Machine

/-- LDI r, v (40_load_and_print.md R110). -/
def execLdi (rb v : Byte) (s : State) : Host.Outcome State Fault Refusal :=
  complete s do
    let r ← regAndImm s rb
    let n ← nextPc s 3
    pure ((s.writeReg r v).withPc n)

/-- PRN r (40_load_and_print.md R111). -/
def execPrn (rb : Byte) (s : State) : Host.Outcome State Fault Refusal :=
  complete s do
    let r ← oneReg s rb
    let n ← nextPc s 2
    pure ((s.emit (s.readReg r)).withPc n)

end Sys2Proof.Machine
end

