-- ==== Sys2Proof/Machine/Stack.lean ====
section
/-! DEFINITION. The meanings of PUSH and POP (spec 42_stack.md). -/

namespace Sys2Proof.Machine

/-- The stack pointer after POP's `x[r] <- v` and before the increment: the popped byte itself when r is register 7
(42_stack.md R136). -/
def popBase (s : State) (r : Fin 8) (v : Byte) : Byte := (s.writeReg r v).sp

/-- PUSH r (42_stack.md R135): the stack pointer is decremented first, so `PUSH R7` stores the new stack pointer. -/
def execPush (rb : Byte) (s : State) : Host.Outcome State Fault Refusal :=
  complete s do
    let r ← oneReg s rb
    let a ← pushAddress s
    let n ← nextPc s 2
    let s' := s.writeReg Config.spIndex a
    pure ((s'.store a (s'.readReg r)).withPc n)

/-- POP r (42_stack.md R136): the increment applies to register 7 as it stands after the popped byte is written. -/
def execPop (rb : Byte) (s : State) : Host.Outcome State Fault Refusal :=
  complete s do
    let r ← oneReg s rb
    let v := s.mem.read s.sp
    let sp' ← incrementedSp (popBase s r v)
    let n ← nextPc s 2
    pure (((s.writeReg r v).writeReg Config.spIndex sp').withPc n)

end Sys2Proof.Machine
end

