-- ==== Sys2Proof/Machine/System.lean ====
section
/-! DEFINITION. The meaning of HLT, the one system instruction (spec 44_halt_and_cycle.md R165, R166). -/

namespace Sys2Proof.Machine

/-- HLT (44_halt_and_cycle.md R165): `status <- Halted` and nothing else; pc keeps the address of the HLT. -/
def execHlt (s : State) : Host.Outcome State Fault Refusal := .next s.halt

end Sys2Proof.Machine
end

