-- ==== Sys2Proof/Machine/Cycle.lean ====
section
/-! DEFINITION. The fetch-decode-execute cycle under any opcode map, and placing an instruction where the cycle fetches
next (spec 44_halt_and_cycle.md R170). -/

namespace Sys2Proof.Machine

/-- The byte at pc + k, when that address exists (00_scope.md R12). -/
def fetchByte (s : State) (k : Nat) : Option Byte :=
  match formAddress (s.pc.toNat + k) with
  | .ok a => some (s.mem.read a)
  | .error _ => none

/-- The instruction bytes the decoder is offered: those of pc, pc + 1 and pc + 2 that exist. No byte wraps from address
255 to 0 (20_memory.md R56). Offering a byte the instruction does not use is not observable: a read has no side effect
(20_memory.md R57; DEDUCED, log 9). -/
def fetchBytes (s : State) : List Byte := [0, 1, 2].filterMap (fetchByte s)

/-- One step under the opcode map `opc` (44_halt_and_cycle.md R170): no step unless Running; an unknown opcode faults
before any operand is asked for (30_encoding.md R93); a missing operand byte is out of bounds (R85); otherwise the rule
of the instruction. -/
def cycle (opc : OpcodeMap) (s : State) : Host.Outcome State Fault Refusal :=
  match s.status with
  | .halted => .fault .halted
  | .faulted => .fault .faulted
  | .running =>
    match decodeWith opc (fetchBytes s) with
    | .ok (i, _) => exec i s
    | .error (.unknownOpcode _) => .next (takeFault .unknownOpcode s)
    | .error .truncated => .next (takeFault .outOfBounds s)

/-- Stores the bytes at pc + k, pc + k + 1, … where those addresses exist. -/
def placeBytes (s : State) : Nat → List Byte → State
  | _, [] => s
  | k, b :: rest =>
    match formAddress (s.pc.toNat + k) with
    | .ok a => placeBytes (s.store a b) (k + 1) rest
    | .error _ => s

end Sys2Proof.Machine
end

