-- ==== Sys2Proof/Machine/Step.lean ====
section
/-! DEFINITION. The step of the machine with the default opcode values, and the host's way to place one instruction where
the step fetches next. -/

namespace Sys2Proof.Machine

/-- One step (44_halt_and_cycle.md R170) with the default `OPC` (30_encoding.md R90, log 1). -/
def step (s : State) : Host.Outcome State Fault Refusal := cycle defaultOpc s

/-- `s` with an opcode-table word (bits above `nbits` zero, up to three bytes) at pc, and Running, which the fetch needs
(log 6). It stands for the loader, which supplies the program from outside the machine (70_reset_and_hazards.md R219). -/
def State.withFetchWord (s : State) (nbits w : Nat) : State :=
  placeBytes { s with status := .running } 0 (tableBytes nbits w)

end Sys2Proof.Machine
end

