-- ==== Sys2Proof/Machine/Platform.lean ====
section
/-! DEFINITION. The core's interfaces to the outside as pure functions: load, reset, status and output port
(spec 70_reset_and_hazards.md R210, R218 to R222). None is a step of the core. -/

namespace Sys2Proof.Machine

/-- Every address once, 0 first. -/
def addresses : List Byte := (List.range Config.memSize).map (BitVec.ofNat 8)

/-- The memory that holds `IMAGE` at every address (20_memory.md R62). -/
def imageMemory (image : Byte → Byte) : Memory :=
  addresses.foldr (fun a m => m.write a (image a)) ⟨[]⟩

/-- The loader's convention: the program's bytes from address 0 upward, 0x00 above them (70_reset_and_hazards.md R219;
the fill is PRESUMED, log 2). -/
def programImage (bytes : List Byte) (a : Byte) : Byte := bytes.getD a.toNat Memory.unlisted

/-- A program of more than 256 bytes defines no image (70_reset_and_hazards.md R219, open behaviour I13; log 16). -/
def loadProgram (bytes : List Byte) : Option Memory :=
  if bytes.length ≤ Config.memSize then some (imageMemory (programImage bytes)) else none

/-- Reset asserted in any state, with the loader supplying `IMAGE` before it is released (70_reset_and_hazards.md R210,
10_state.md R37): the reset values and the new memory, and nothing of the state before. -/
def applyReset (image : Memory) (_before : State) : State := { State.reset with mem := image }

/-- The exit status the host derives: 0 for Halted, `EXIT_FAULT` for every fault, none for a run that has not ended
(70_reset_and_hazards.md R222). A host convention (log 14). -/
def exitStatus (exitFault : Nat) (s : State) : Option Nat :=
  match s.status with
  | .running => none
  | .halted => some 0
  | .faulted => some exitFault

/-- What the host's diagnostic names: cause code, opcode and pc of the fault (70_reset_and_hazards.md R222). -/
def faultReport (s : State) : Option (Nat × Byte × Byte) :=
  s.faultCause.map fun c => (c.code, s.faultOpcode, s.faultPc)

/-- The host's rendering of one PRN value: the unsigned decimal numeral and a line break (70_reset_and_hazards.md R221).
Decimal is PRESUMED (log 14). Which characters make the line break the spec does not say (91_not_in_source.md N8); the one
character line feed is a DESIGN CHOICE (log 19). Not behaviour of the core. -/
def renderByte (v : Byte) : String := Nat.repr v.toNat ++ "\n"

/-- The whole output as text, oldest value first (70_reset_and_hazards.md R221). -/
def renderOut (s : State) : String := String.join (s.out.map renderByte)

end Sys2Proof.Machine
end

