-- ==== Sys2Proof/Safety.lean ====
section
/-! DEFINITION. The terms claims are stated in: what two states share, fault entry as an observer sees it, the invariant
of every state a run meets, and runs. -/

namespace Sys2Proof.Machine

/-! ### What two states share -/

/-- Every register is unchanged. -/
def SameRegs (s t : State) : Prop := ∀ j : Fin 8, t.readReg j = s.readReg j

/-- Every register but `d` is unchanged. -/
def SameRegsBut (d : Fin 8) (s t : State) : Prop := ∀ j : Fin 8, j ≠ d → t.readReg j = s.readReg j

/-- Every byte of memory reads as before. -/
def SameMem (s t : State) : Prop := ∀ a : Byte, t.mem.read a = s.mem.read a

/-- Every byte of memory outside address `a` reads as before. -/
def SameMemBut (a : Byte) (s t : State) : Prop := ∀ b : Byte, b ≠ a → t.mem.read b = s.mem.read b

/-- `status` and the whole fault record are unchanged. -/
def SameControl (s t : State) : Prop :=
  t.status = s.status ∧ t.faultCause = s.faultCause ∧ t.faultPc = s.faultPc ∧ t.faultOpcode = s.faultOpcode

/-! ### Fault entry as an observer sees it (60_exceptions.md R188, R190) -/

/-- From `s` to `t` the core took the fault `c`: the record and the status are written, everything else is as before. -/
def FaultEntered (c : FaultCause) (s t : State) : Prop :=
  t.status = .faulted ∧ t.faultCause = some c ∧ t.faultPc = s.pc ∧ t.faultOpcode = s.mem.read s.pc ∧
  t.pc = s.pc ∧ SameRegs s t ∧ t.fl = s.fl ∧ SameMem s t ∧ t.out = s.out

/-- The bytes that the format makes register indices, in the order they are checked (30_encoding.md R81, R85). -/
def registerOperands : Instr → List Byte
  | .ldi r _ => [r]
  | .prn r => [r]
  | .add a b => [a, b]
  | .mul a b => [a, b]
  | .push r => [r]
  | .pop r => [r]
  | .call r => [r]
  | .ret => []
  | .cmp a b => [a, b]
  | .jeq r => [r]
  | .jne r => [r]
  | .jmp r => [r]
  | .hlt => []

/-- The registers an instruction may write: its destination and, for the stack instructions, register 7
(10_state.md R24). -/
def destinations : Instr → List Nat
  | .ldi r _ => [r.toNat]
  | .prn _ => []
  | .add a _ => [a.toNat]
  | .mul a _ => [a.toNat]
  | .push _ => [7]
  | .pop r => [r.toNat, 7]
  | .call _ => [7]
  | .ret => [7]
  | .cmp _ _ => []
  | .jeq _ => []
  | .jne _ => []
  | .jmp _ => []
  | .hlt => []

/-- Whether an instruction stores to memory: PUSH and CALL alone (20_memory.md R53). -/
def stores : Instr → Bool
  | .push _ => true
  | .call _ => true
  | .ldi _ _ => false
  | .prn _ => false
  | .add _ _ => false
  | .mul _ _ => false
  | .pop _ => false
  | .ret => false
  | .cmp _ _ => false
  | .jeq _ => false
  | .jne _ => false
  | .jmp _ => false
  | .hlt => false

/-! ### What a state hides from the instructions -/

/-- The two states agree on everything but the flags L and G, which no instruction reads (10_state.md R28). -/
def AgreeButLG (s t : State) : Prop :=
  t.regs = s.regs ∧ t.pc = s.pc ∧ t.fl.e = s.fl.e ∧ t.status = s.status ∧ t.faultCause = s.faultCause ∧
  t.faultPc = s.faultPc ∧ t.faultOpcode = s.faultOpcode ∧ t.mem = s.mem ∧ t.out = s.out

/-- The two states agree on everything but `fault_pc`, `fault_opcode` (10_state.md R31) and the output so far (R33). -/
def AgreeButRecordAndOut (s t : State) : Prop :=
  t.regs = s.regs ∧ t.pc = s.pc ∧ t.fl = s.fl ∧ t.status = s.status ∧ t.mem = s.mem

/-! ### The invariant -/

/-- All flags false, or exactly one true (10_state.md R29). -/
def FlagsLegal (fl : Flags) : Prop :=
  fl = ⟨false, false, false⟩ ∨ fl = ⟨true, false, false⟩ ∨ fl = ⟨false, true, false⟩ ∨ fl = ⟨false, false, true⟩

/-- The fault record agrees with the status: None unless Faulted, and when Faulted a cause the hardware can raise, with
pc and M[pc] latched (10_state.md R31, 60_exceptions.md R188, 41_alu.md R125). -/
def FaultRecordLegal (s : State) : Prop :=
  match s.faultCause with
  | none => s.status ≠ .faulted
  | some c => s.status = .faulted ∧ c ≠ .unsupportedOperation ∧ s.faultPc = s.pc ∧ s.faultOpcode = s.mem.read s.pc

/-- The invariant of every state a run meets. -/
def Inv (s : State) : Prop := s.mem.wf ∧ FlagsLegal s.fl ∧ FaultRecordLegal s

/-! ### Runs (44_halt_and_cycle.md R171) -/

/-- A state met by some run from reset, whatever `IMAGE` the loader supplied. -/
inductive Reachable : State → Prop where
  | launch (image : Byte → Byte) (before : State) : Reachable (applyReset (imageMemory image) before)
  | step {s t : State} (h : Reachable s) (hstep : Sys2Proof.Machine.step s = .next t) : Reachable t

/-- A clean end of a run: `status` = Halted and nothing else (44_halt_and_cycle.md R171, R174). -/
def CleanEnd (s : State) : Prop := s.status = .halted

/-- The bytes of `i` under the opcode map `opc` stand at pc, pc + 1, …, all of them inside memory. -/
def InstrAt (opc : OpcodeMap) (i : Instr) (s : State) : Prop :=
  ∀ (k : Nat) (b : Byte), (encodeWith opc i)[k]? = some b →
    ∃ a : Byte, a.toNat = s.pc.toNat + k ∧ s.mem.read a = b

end Sys2Proof.Machine
end

