-- ==== Sys2Proof/WellFormed.lean ====
section
/-! DEFINITION. Which instructions are well formed: every register operand byte is 0..7 (spec 30_encoding.md R84). -/

namespace Sys2Proof

/-- A register operand byte is legal exactly when it is 0..7 (30_encoding.md R84). -/
def regByteOk (b : Byte) : Bool := b.toNat ≤ 7

/-- Every register operand of the instruction is legal; an immediate may be any byte (30_encoding.md R81, R94). -/
def Instr.wf : Instr → Bool
  | .ldi r _ => regByteOk r
  | .prn r => regByteOk r
  | .add a b => regByteOk a && regByteOk b
  | .mul a b => regByteOk a && regByteOk b
  | .push r => regByteOk r
  | .pop r => regByteOk r
  | .call r => regByteOk r
  | .ret => true
  | .cmp a b => regByteOk a && regByteOk b
  | .jeq r => regByteOk r
  | .jne r => regByteOk r
  | .jmp r => regByteOk r
  | .hlt => true

end Sys2Proof
end

