-- ==== Sys2Proof/Certificates/Slice0/Obligations.lean ====
section
/-! DEFINITION. The statements for the provers. A statement with no hypothesis on the state holds in every state, reached
by a run or not. Where a clause rests on a decision that spec/92_eei_decisions.md marks as the spec's own, the docstring
names it; where it rests on a choice of the model or on general knowledge, the docstring names the log entry. -/

open Sys2Proof Sys2Proof.Machine

/-! ### One statement per instruction: every outcome, with the frame

The chain of conditions is the order of the checks (30_encoding.md R85); its last branch is the instruction's own
effect, and is where the instruction completes. -/

/-- 40_load_and_print.md R110. Destination: x[r], register 7 not excepted. Out-of-range cases by decisions D2, D6, D17. -/
def Obligations.LdiLoadsImmediate : Prop :=
  ∀ (r v : Byte) (s : State),
    (∀ opc : OpcodeMap, encodeWith opc (.ldi r v) = [opc .ldi, r, v]) ∧
    ∃ t, exec (.ldi r v) s = .next t ∧
      if 253 < s.pc.toNat then FaultEntered .outOfBounds s t
      else if 7 < r.toNat then FaultEntered .invalidRegister s t
      else if 252 < s.pc.toNat then FaultEntered .outOfBounds s t
      else ∀ d : Fin 8, d.val = r.toNat →
        t.readReg d = v ∧ SameRegsBut d s t ∧ t.pc.toNat = s.pc.toNat + 3 ∧ t.fl = s.fl ∧ SameMem s t ∧
        t.out = s.out ∧ SameControl s t

/-- 40_load_and_print.md R111. Writes no register. Out-of-range cases by decisions D2, D6, D17. -/
def Obligations.PrnEmitsRegister : Prop :=
  ∀ (r : Byte) (s : State),
    (∀ opc : OpcodeMap, encodeWith opc (.prn r) = [opc .prn, r]) ∧
    ∃ t, exec (.prn r) s = .next t ∧
      if 254 < s.pc.toNat then FaultEntered .outOfBounds s t
      else if 7 < r.toNat then FaultEntered .invalidRegister s t
      else if 253 < s.pc.toNat then FaultEntered .outOfBounds s t
      else ∀ d : Fin 8, d.val = r.toNat →
        t.out = s.out ++ [s.readReg d] ∧ SameRegs s t ∧ t.pc.toNat = s.pc.toNat + 2 ∧ t.fl = s.fl ∧ SameMem s t ∧
        SameControl s t

/-- 41_alu.md R121, the sum as an exact number reduced modulo 256 (decision D1). Destination: x[a]. -/
def Obligations.AddWritesSumModulo256 : Prop :=
  ∀ (a b : Byte) (s : State),
    (∀ opc : OpcodeMap, encodeWith opc (.add a b) = [opc .add, a, b]) ∧
    ∃ t, exec (.add a b) s = .next t ∧
      if 253 < s.pc.toNat then FaultEntered .outOfBounds s t
      else if 7 < a.toNat ∨ 7 < b.toNat then FaultEntered .invalidRegister s t
      else if 252 < s.pc.toNat then FaultEntered .outOfBounds s t
      else ∀ d e : Fin 8, d.val = a.toNat → e.val = b.toNat →
        (t.readReg d).toNat = ((s.readReg d).toNat + (s.readReg e).toNat) % 256 ∧ SameRegsBut d s t ∧
        t.pc.toNat = s.pc.toNat + 3 ∧ t.fl = s.fl ∧ SameMem s t ∧ t.out = s.out ∧ SameControl s t

/-- 41_alu.md R122, the product as an exact number reduced modulo 256 (decision D1). Destination: x[a]. -/
def Obligations.MulWritesProductModulo256 : Prop :=
  ∀ (a b : Byte) (s : State),
    (∀ opc : OpcodeMap, encodeWith opc (.mul a b) = [opc .mul, a, b]) ∧
    ∃ t, exec (.mul a b) s = .next t ∧
      if 253 < s.pc.toNat then FaultEntered .outOfBounds s t
      else if 7 < a.toNat ∨ 7 < b.toNat then FaultEntered .invalidRegister s t
      else if 252 < s.pc.toNat then FaultEntered .outOfBounds s t
      else ∀ d e : Fin 8, d.val = a.toNat → e.val = b.toNat →
        (t.readReg d).toNat = ((s.readReg d).toNat * (s.readReg e).toNat) % 256 ∧ SameRegsBut d s t ∧
        t.pc.toNat = s.pc.toNat + 3 ∧ t.fl = s.fl ∧ SameMem s t ∧ t.out = s.out ∧ SameControl s t

/-- 41_alu.md R123 by decision D3: all three flags written, exactly one true. Which of L and G stands for less is the
reading R123 takes from general knowledge (log 10). Writes no register. -/
def Obligations.CmpSetsExactlyOneFlag : Prop :=
  ∀ (a b : Byte) (s : State),
    (∀ opc : OpcodeMap, encodeWith opc (.cmp a b) = [opc .cmp, a, b]) ∧
    ∃ t, exec (.cmp a b) s = .next t ∧
      if 253 < s.pc.toNat then FaultEntered .outOfBounds s t
      else if 7 < a.toNat ∨ 7 < b.toNat then FaultEntered .invalidRegister s t
      else if 252 < s.pc.toNat then FaultEntered .outOfBounds s t
      else ∀ d e : Fin 8, d.val = a.toNat → e.val = b.toNat →
        (t.fl.e = true ↔ (s.readReg d).toNat = (s.readReg e).toNat) ∧
        (t.fl.l = true ↔ (s.readReg d).toNat < (s.readReg e).toNat) ∧
        (t.fl.g = true ↔ (s.readReg e).toNat < (s.readReg d).toNat) ∧
        SameRegs s t ∧ t.pc.toNat = s.pc.toNat + 3 ∧ SameMem s t ∧ t.out = s.out ∧ SameControl s t

/-- 42_stack.md R135. Register 7 is the one register written; the cell stored to is the one `pushAddress` gives, and
`PUSH R7` stores the new stack pointer (decision D14). -/
def Obligations.PushStoresBelowStackPointer : Prop :=
  ∀ (r : Byte) (s : State),
    (∀ opc : OpcodeMap, encodeWith opc (.push r) = [opc .push, r]) ∧
    ∃ t, exec (.push r) s = .next t ∧
      if 254 < s.pc.toNat then FaultEntered .outOfBounds s t
      else if 7 < r.toNat then FaultEntered .invalidRegister s t
      else if s.sp.toNat = 0 ∨ 253 < s.pc.toNat then FaultEntered .outOfBounds s t
      else ∀ d : Fin 8, d.val = r.toNat →
        (∃ a : Byte, pushAddress s = .ok a) ∧
        (∀ a : Byte, pushAddress s = .ok a →
          a.toNat + 1 = s.sp.toNat ∧ t.sp = a ∧ t.mem.read a = (if d = 7 then a else s.readReg d) ∧
          SameMemBut a s t) ∧
        SameRegsBut 7 s t ∧ t.pc.toNat = s.pc.toNat + 2 ∧ t.fl = s.fl ∧ t.out = s.out ∧ SameControl s t

/-- 42_stack.md R136. Registers written: x[r] and register 7, whose increment applies to the popped byte itself for
`POP R7` (decision D14). -/
def Obligations.PopLoadsFromStackPointer : Prop :=
  ∀ (r : Byte) (s : State),
    (∀ opc : OpcodeMap, encodeWith opc (.pop r) = [opc .pop, r]) ∧
    ∃ t, exec (.pop r) s = .next t ∧
      if 254 < s.pc.toNat then FaultEntered .outOfBounds s t
      else if 7 < r.toNat then FaultEntered .invalidRegister s t
      else if 253 < s.pc.toNat ∨ (if r.toNat = 7 then s.mem.read s.sp else s.sp).toNat = 255 then
        FaultEntered .outOfBounds s t
      else ∀ d : Fin 8, d.val = r.toNat →
        (d ≠ 7 → t.readReg d = s.mem.read s.sp ∧ t.sp.toNat = s.sp.toNat + 1) ∧
        (d = 7 → t.sp.toNat = (s.mem.read s.sp).toNat + 1) ∧
        (∀ j : Fin 8, j ≠ d → j ≠ 7 → t.readReg j = s.readReg j) ∧
        t.pc.toNat = s.pc.toNat + 2 ∧ t.fl = s.fl ∧ SameMem s t ∧ t.out = s.out ∧ SameControl s t

/-- 43_control_transfer.md R145. Register 7 is the one register written; the return address pc + 2 (conflict C1) goes to
the cell `pushAddress` gives; `CALL R7` jumps to the new stack pointer (decision D14). -/
def Obligations.CallPushesReturnAddress : Prop :=
  ∀ (r : Byte) (s : State),
    (∀ opc : OpcodeMap, encodeWith opc (.call r) = [opc .call, r]) ∧
    ∃ t, exec (.call r) s = .next t ∧
      if 254 < s.pc.toNat then FaultEntered .outOfBounds s t
      else if 7 < r.toNat then FaultEntered .invalidRegister s t
      else if 253 < s.pc.toNat ∨ s.sp.toNat = 0 then FaultEntered .outOfBounds s t
      else ∀ d : Fin 8, d.val = r.toNat →
        (∃ a : Byte, pushAddress s = .ok a) ∧
        (∀ a : Byte, pushAddress s = .ok a →
          a.toNat + 1 = s.sp.toNat ∧ t.sp = a ∧ (t.mem.read a).toNat = s.pc.toNat + 2 ∧ SameMemBut a s t ∧
          t.pc = (if d = 7 then a else s.readReg d)) ∧
        SameRegsBut 7 s t ∧ t.fl = s.fl ∧ t.out = s.out ∧ SameControl s t

/-- 43_control_transfer.md R146. Register 7 is the one register written; RET is legal at every pc. -/
def Obligations.RetPopsProgramCounter : Prop :=
  ∀ s : State,
    (∀ opc : OpcodeMap, encodeWith opc .ret = [opc .ret]) ∧
    ∃ t, exec .ret s = .next t ∧
      if s.sp.toNat = 255 then FaultEntered .outOfBounds s t
      else t.pc = s.mem.read s.sp ∧ t.sp.toNat = s.sp.toNat + 1 ∧ SameRegsBut 7 s t ∧ t.fl = s.fl ∧ SameMem s t ∧
        t.out = s.out ∧ SameControl s t

/-- 43_control_transfer.md R147. The operand is checked whether or not the jump is taken (decision D6). -/
def Obligations.JeqJumpsWhenEqualSet : Prop :=
  ∀ (r : Byte) (s : State),
    (∀ opc : OpcodeMap, encodeWith opc (.jeq r) = [opc .jeq, r]) ∧
    ∃ t, exec (.jeq r) s = .next t ∧
      if 254 < s.pc.toNat then FaultEntered .outOfBounds s t
      else if 7 < r.toNat then FaultEntered .invalidRegister s t
      else if s.fl.e = false ∧ 253 < s.pc.toNat then FaultEntered .outOfBounds s t
      else ∀ d : Fin 8, d.val = r.toNat →
        (s.fl.e = true → t.pc = s.readReg d) ∧ (s.fl.e = false → t.pc.toNat = s.pc.toNat + 2) ∧
        SameRegs s t ∧ t.fl = s.fl ∧ SameMem s t ∧ t.out = s.out ∧ SameControl s t

/-- 43_control_transfer.md R148. The operand is checked whether or not the jump is taken (decision D6). -/
def Obligations.JneJumpsWhenEqualClear : Prop :=
  ∀ (r : Byte) (s : State),
    (∀ opc : OpcodeMap, encodeWith opc (.jne r) = [opc .jne, r]) ∧
    ∃ t, exec (.jne r) s = .next t ∧
      if 254 < s.pc.toNat then FaultEntered .outOfBounds s t
      else if 7 < r.toNat then FaultEntered .invalidRegister s t
      else if s.fl.e = true ∧ 253 < s.pc.toNat then FaultEntered .outOfBounds s t
      else ∀ d : Fin 8, d.val = r.toNat →
        (s.fl.e = false → t.pc = s.readReg d) ∧ (s.fl.e = true → t.pc.toNat = s.pc.toNat + 2) ∧
        SameRegs s t ∧ t.fl = s.fl ∧ SameMem s t ∧ t.out = s.out ∧ SameControl s t

/-- 43_control_transfer.md R149. Legal at pc = 254. -/
def Obligations.JmpLoadsProgramCounter : Prop :=
  ∀ (r : Byte) (s : State),
    (∀ opc : OpcodeMap, encodeWith opc (.jmp r) = [opc .jmp, r]) ∧
    ∃ t, exec (.jmp r) s = .next t ∧
      if 254 < s.pc.toNat then FaultEntered .outOfBounds s t
      else if 7 < r.toNat then FaultEntered .invalidRegister s t
      else ∀ d : Fin 8, d.val = r.toNat →
        t.pc = s.readReg d ∧ SameRegs s t ∧ t.fl = s.fl ∧ SameMem s t ∧ t.out = s.out ∧ SameControl s t

/-- 44_halt_and_cycle.md R165. pc keeps the address of the HLT (decision D15); legal at every pc. -/
def Obligations.HltHaltsAndChangesNothingElse : Prop :=
  ∀ s : State,
    (∀ opc : OpcodeMap, encodeWith opc .hlt = [opc .hlt]) ∧
    ∃ t, exec .hlt s = .next t ∧ t.status = .halted ∧ t.pc = s.pc ∧ SameRegs s t ∧ t.fl = s.fl ∧ SameMem s t ∧
      t.out = s.out ∧ t.faultCause = s.faultCause ∧ t.faultPc = s.faultPc ∧ t.faultOpcode = s.faultOpcode

/-! ### Faults -/

/-- 60_exceptions.md R183, every case of its table (decision D2), for an instruction with legal register operands in a
Running core. -/
def Obligations.OutOfBoundsExactlyInTheTabledCases : Prop :=
  ∀ (i : Instr) (s : State), s.status = .running → (∀ b ∈ registerOperands i, b.toNat ≤ 7) →
    ((∃ t, exec i s = .next t ∧ FaultEntered .outOfBounds s t) ↔
      match i with
      | .ldi _ _ => 252 < s.pc.toNat
      | .add _ _ => 252 < s.pc.toNat
      | .mul _ _ => 252 < s.pc.toNat
      | .cmp _ _ => 252 < s.pc.toNat
      | .prn _ => 253 < s.pc.toNat
      | .push _ => 253 < s.pc.toNat ∨ s.sp.toNat = 0
      | .pop r => 253 < s.pc.toNat ∨ (r.toNat ≠ 7 ∧ s.sp.toNat = 255) ∨
          (r.toNat = 7 ∧ (s.mem.read s.sp).toNat = 255)
      | .call _ => 253 < s.pc.toNat ∨ s.sp.toNat = 0
      | .ret => s.sp.toNat = 255
      | .jeq _ => s.pc.toNat = 255 ∨ (s.pc.toNat = 254 ∧ s.fl.e = false)
      | .jne _ => s.pc.toNat = 255 ∨ (s.pc.toNat = 254 ∧ s.fl.e = true)
      | .jmp _ => s.pc.toNat = 255
      | .hlt => False)

/-- 60_exceptions.md R184 (decision D6) with the order of R186: a register operand byte of 8 to 255 whose instruction has
all its operand bytes in range, in a Running core; nothing else raises it, and a jump not taken is no exception. -/
def Obligations.InvalidRegisterExactlyWhenOperandAboveSeven : Prop :=
  ∀ (i : Instr) (s : State), s.status = .running →
    ((∃ t, exec i s = .next t ∧ FaultEntered .invalidRegister s t) ↔
      s.pc.toNat + i.length ≤ 256 ∧ ∃ b ∈ registerOperands i, 7 < b.toNat)

/-- 60_exceptions.md R186 (decision D17): which cause code a step that faults reports, for every assignment of distinct
opcodes: 1 for an unknown opcode; 4 when all the operand bytes of the instruction at pc are in range and a register
operand exceeds 7; 3 otherwise. -/
def Obligations.FaultPriorityDecidesTheCauseCode : Prop :=
  ∀ (opc : OpcodeMap) (s t : State), opc.Distinct → cycle opc s = .next t → t.status = .faulted →
    ((∀ m, opc m ≠ s.mem.read s.pc) → t.faultCode = 1) ∧
    (∀ i, InstrAt opc i s → (∃ b ∈ registerOperands i, 7 < b.toNat) → t.faultCode = 4) ∧
    (∀ i, InstrAt opc i s → (∀ b ∈ registerOperands i, b.toNat ≤ 7) → t.faultCode = 3) ∧
    (∀ m, opc m = s.mem.read s.pc → 256 < s.pc.toNat + m.format.length → t.faultCode = 3)

/-- 60_exceptions.md R188 and R190 (decisions D12, D16): a step that ends Faulted has done fault entry and nothing else,
whatever the instruction and the opcode map. -/
def Obligations.FaultingStepDoesOnlyFaultEntry : Prop :=
  ∀ (opc : OpcodeMap) (s t : State), cycle opc s = .next t → t.status = .faulted → ∃ c, FaultEntered c s t

/-- 60_exceptions.md R182: a byte at pc that is no opcode faults at fetch, at every pc (255 included), under every opcode
map. -/
def Obligations.UnknownOpcodeFaultsAtFetch : Prop :=
  ∀ (opc : OpcodeMap) (s : State), s.status = .running → (∀ m, opc m ≠ s.mem.read s.pc) →
    ∃ t, cycle opc s = .next t ∧ FaultEntered .unknownOpcode s t ∧ t.faultCode = 1

/-- 41_alu.md R125 (decision D22): no step raises `UnsupportedOperationFault`, although the ALU gives it for an operator
that is not of the family asked. -/
def Obligations.NoStepRaisesUnsupportedOperation : Prop :=
  (∀ (opc : OpcodeMap) (s t : State), s.faultCause ≠ some .unsupportedOperation → cycle opc s = .next t →
    t.faultCause ≠ some .unsupportedOperation) ∧
  (∀ x y : Byte, aluArith .cmp x y = .error .unsupportedOperation ∧
    aluCompare .add x y = .error .unsupportedOperation ∧ aluCompare .mul x y = .error .unsupportedOperation)

/-! ### The cycle -/

/-- What a step runs: when the bytes fetched at pc decode to `i`, the step is `exec i` of the same state; nothing is
added around it, since every rule sets pc itself (44_halt_and_cycle.md R170). -/
def Obligations.StepRunsTheDecodedInstruction : Prop :=
  ∀ (s : State) (i : Instr) (rest : List Byte), s.status = .running → decode (fetchBytes s) = .ok (i, rest) →
    step s = exec i s

/-- 44_halt_and_cycle.md R170, whole, for every assignment of distinct opcodes and in terms of the bytes in memory: no
step unless Running; an unknown opcode faults; the instruction whose bytes stand at pc is executed; an instruction whose
operand bytes run past address 255 is out of bounds; no other case; and the three outcomes, Halted by HLT alone. -/
def Obligations.StepFollowsTheCycle : Prop :=
  ∀ (opc : OpcodeMap) (s : State), opc.Distinct →
    (s.status ≠ .running → ∀ t, cycle opc s ≠ .next t) ∧
    (s.status = .running →
      ((∀ m, opc m ≠ s.mem.read s.pc) → ∃ t, cycle opc s = .next t ∧ FaultEntered .unknownOpcode s t) ∧
      (∀ i, InstrAt opc i s → cycle opc s = exec i s) ∧
      (∀ m, opc m = s.mem.read s.pc → 256 < s.pc.toNat + m.format.length →
        ∃ t, cycle opc s = .next t ∧ FaultEntered .outOfBounds s t) ∧
      ((∀ m, opc m ≠ s.mem.read s.pc) ∨ (∃ i, InstrAt opc i s) ∨
        ∃ m, opc m = s.mem.read s.pc ∧ 256 < s.pc.toNat + m.format.length) ∧
      (∀ t, cycle opc s = .next t →
        (t.status = .halted ↔ InstrAt opc .hlt s) ∧
        (t.status = .running ∨ t.status = .halted ∨ t.status = .faulted)))

/-- A Running core has a next state, whatever its memory, registers and opcode map: no program stops the model
(44_halt_and_cycle.md R170). -/
def Obligations.RunningCoreAlwaysSteps : Prop :=
  ∀ (opc : OpcodeMap) (s : State), s.status = .running → ∃ t, cycle opc s = .next t

/-- 44_halt_and_cycle.md R174 (decision D15): a Halted or Faulted core has no step, so its state never changes again; the
names of the two stops are the model's (log 5). -/
def Obligations.TerminalStatesHaveNoStep : Prop :=
  ∀ s : State,
    (s.status = .halted → step s = .fault .halted ∧ ∀ k t, Sys2Proof.core.run (k + 1) s ≠ .next t) ∧
    (s.status = .faulted → step s = .fault .faulted ∧ ∀ k t, Sys2Proof.core.run (k + 1) s ≠ .next t)

/-- A JMP to its own address (44_halt_and_cycle.md R172, 43_control_transfer.md R149): the state repeats for ever. -/
def Obligations.SelfJumpNeverEnds : Prop :=
  ∀ (s : State) (r : Byte) (d : Fin 8), s.status = .running → InstrAt defaultOpc (.jmp r) s → d.val = r.toNat →
    s.readReg d = s.pc → ∀ k, Sys2Proof.core.run k s = .next s

/-! ### Encoding -/

/-- Every instruction, at every operand value the bytes admit, legal or not, and with any bytes after it, decodes from its
encoding under every assignment of distinct opcodes. -/
def Obligations.DecodeOfEncodeReturnsTheInstruction : Prop :=
  ∀ (opc : OpcodeMap) (i : Instr) (rest : List Byte), opc.Distinct →
    decodeWith opc (encodeWith opc i ++ rest) = .ok (i, rest)

/-- What the decoder reads, encoded again, is the bytes it read: no two encodings of one instruction, and nothing
skipped. -/
def Obligations.EncodeOfDecodeReturnsTheBytes : Prop :=
  ∀ (opc : OpcodeMap) (bs rest : List Byte) (i : Instr), decodeWith opc bs = .ok (i, rest) →
    encodeWith opc i ++ rest = bs

/-- 30_encoding.md R92: the decoder is total and each byte has one meaning. -/
def Obligations.EveryByteIsOneOpcodeOrUnknown : Prop :=
  ∀ (opc : OpcodeMap) (b : Byte), opc.Distinct →
    (∃ m, opc m = b ∧ (∀ m', opc m' = b → m' = m) ∧
      ∀ rest, decodeWith opc (b :: rest) = .error .truncated ∨
        ∃ i bs, decodeWith opc (b :: rest) = .ok (i, bs) ∧ i.mnemonic = m) ∨
    ((∀ m, opc m ≠ b) ∧ ∀ rest, decodeWith opc (b :: rest) = .error (.unknownOpcode b))

/-- 30_encoding.md R93: 243 of the 256 byte values are no opcode, for every assignment of distinct opcodes. -/
def Obligations.UnknownOpcodesAre243 : Prop :=
  ∀ opc : OpcodeMap, opc.Distinct → (addresses.filter fun b => (lookupOpcode opc b).isNone).length = 243

/-- Words written out from 30_encoding.md R90 and 95_test_vectors.md; the opcode numbers are general knowledge
(log 1). -/
def Obligations.DecodesWordsWrittenOut : Prop :=
  decode [0x82#8, 3#8, 255#8] = .ok (.ldi 3#8 255#8, []) ∧
  decode [0xA0#8, 0#8, 1#8, 7#8] = .ok (.add 0#8 1#8, [7#8]) ∧
  decode [0x45#8, 7#8] = .ok (.push 7#8, []) ∧
  decode [0x50#8, 1#8] = .ok (.call 1#8, []) ∧
  decode [0x01#8] = .ok (.hlt, []) ∧
  decode [0x00#8] = .error (.unknownOpcode 0#8) ∧
  decode [0x83#8, 0#8, 0#8] = .error (.unknownOpcode 0x83#8) ∧
  decode [0xA7#8, 0#8] = .error .truncated

/-- Placing an opcode-table word (the model's stand-in for the loader, log 6): where three bytes fit, the very next step
runs the instruction the decoder reads from the word, and placing changes memory at pc, pc + 1, pc + 2 and the status
alone. -/
def Obligations.PlacedWordRunsNext : Prop :=
  ∀ (s : State) (nbits w : Nat) (i : Instr), s.pc.toNat ≤ 253 → decodeTableWord nbits w = some i →
    let u := s.withFetchWord nbits w
    step u = exec i u ∧ u.status = .running ∧ u.regs = s.regs ∧ u.pc = s.pc ∧ u.fl = s.fl ∧ u.out = s.out ∧
    u.faultCause = s.faultCause ∧ u.faultPc = s.faultPc ∧ u.faultOpcode = s.faultOpcode ∧
    ∀ a : Byte, (a.toNat < s.pc.toNat ∨ s.pc.toNat + 2 < a.toNat) → u.mem.read a = s.mem.read a

/-! ### Reset and load -/

/-- 10_state.md R35: the reset values the source states, after reset in any state with any memory supplied. -/
def Obligations.ResetGivesTheStatedValues : Prop :=
  ∀ (image : Memory) (before : State),
    (applyReset image before).sp = 0xF4#8 ∧ (applyReset image before).readReg 7 = 0xF4#8 ∧
    (applyReset image before).pc = 0x00#8 ∧ (applyReset image before).fl = ⟨false, false, false⟩ ∧
    (applyReset image before).status = .running

/-- 70_reset_and_hazards.md R211 with 10_state.md R36 and R37: the whole state after reset, the same whatever was before.
That R0 to R6 are 0 is the spec's decision D7 from general knowledge (log 3); `fault_pc` and `fault_opcode` are unspecified
and not spoken of. -/
def Obligations.ResetForgetsTheStateBefore : Prop :=
  ∀ (image : Memory) (before other : State),
    applyReset image before = applyReset image other ∧
    (∀ j : Fin 8, j ≠ 7 → (applyReset image before).readReg j = 0#8) ∧
    (applyReset image before).faultCause = none ∧ (applyReset image before).faultCode = 0 ∧
    (applyReset image before).out = [] ∧ (∀ a : Byte, (applyReset image before).mem.read a = image.read a) ∧
    applyReset State.reset.mem before = State.reset

/-- 20_memory.md R62: when the first step begins, memory is `IMAGE` at every address. -/
def Obligations.MemoryAfterLaunchIsTheImage : Prop :=
  ∀ (image : Byte → Byte) (before : State) (a : Byte),
    (applyReset (imageMemory image) before).mem.read a = image a

/-- The loader's convention of 70_reset_and_hazards.md R219: program bytes from address 0, 0x00 above (general knowledge,
log 2); a program of more than 256 bytes defines no image (log 16). -/
def Obligations.LoaderPlacesTheProgramFromZero : Prop :=
  ∀ bytes : List Byte,
    (bytes.length ≤ 256 → ∃ m, loadProgram bytes = some m ∧ m.wf ∧
      ∀ a : Byte, (∀ b, bytes[a.toNat]? = some b → m.read a = b) ∧ (bytes.length ≤ a.toNat → m.read a = 0#8)) ∧
    (256 < bytes.length → loadProgram bytes = none)

/-- 70_reset_and_hazards.md R222: the host's exit status, for any non-zero `EXIT_FAULT` (a host convention, log 14). -/
def Obligations.ExitStatusZeroOnlyForCleanEnd : Prop :=
  ∀ (exitFault : Nat) (s : State), exitFault ≠ 0 →
    (exitStatus exitFault s = some 0 ↔ CleanEnd s) ∧ (s.status = .faulted → exitStatus exitFault s = some exitFault) ∧
    (s.status = .running → exitStatus exitFault s = none)

/-! ### Invariants and whole-machine rules -/

/-- Every step, under every opcode map, keeps the invariant: memory in canonical form, flags all false or exactly one
true (R29), the fault record in agreement with the status (R31, R188, R125). -/
def Obligations.EveryStepKeepsTheInvariant : Prop :=
  ∀ (opc : OpcodeMap) (s t : State), Inv s → cycle opc s = .next t → Inv t

/-- The invariant holds in `State.reset` and after reset with any image. -/
def Obligations.InvariantHoldsAtReset : Prop :=
  Inv State.reset ∧ ∀ (image : Byte → Byte) (before : State), Inv (applyReset (imageMemory image) before)

/-- 10_state.md R29 (decision D3): after reset all flags are false; in every reachable state all are false or exactly one
is true; a CMP that does not fault leaves exactly one true, whatever the flags were; no other instruction changes a
flag. -/
def Obligations.FlagsAreNoneOrTheLastComparison : Prop :=
  (∀ (image : Byte → Byte) (before : State),
    (applyReset (imageMemory image) before).fl = ⟨false, false, false⟩) ∧
  (∀ s : State, Reachable s → FlagsLegal s.fl) ∧
  (∀ (a b : Byte) (s t : State), s.status = .running → exec (.cmp a b) s = .next t → t.status ≠ .faulted →
    t.fl ≠ ⟨false, false, false⟩ ∧ FlagsLegal t.fl) ∧
  (∀ (i : Instr) (s t : State), (∀ a b, i ≠ .cmp a b) → exec i s = .next t → t.fl = s.fl)

/-- What 10_state.md R28 derives: L and G influence no step. Two states that differ only in them have next states that
differ only in them. -/
def Obligations.LessAndGreaterInfluenceNothing : Prop :=
  ∀ (opc : OpcodeMap) (s s' t : State), AgreeButLG s s' → cycle opc s = .next t →
    ∃ t', cycle opc s' = .next t' ∧ AgreeButLG t t'

/-- What 10_state.md R31 and R33 say of reading: no instruction reads the fault record or the output. Two states that
differ only in them take the same step in everything else, and append the same byte or none. -/
def Obligations.RecordAndOutputAreNeverRead : Prop :=
  ∀ (opc : OpcodeMap) (s s' t : State), AgreeButRecordAndOut s s' → cycle opc s = .next t →
    ∃ t', cycle opc s' = .next t' ∧ AgreeButRecordAndOut t t' ∧
      ∃ emitted, t.out = s.out ++ emitted ∧ t'.out = s'.out ++ emitted

/-- 20_memory.md R53: only PUSH and CALL change memory, one cell each, the one `pushAddress` gives; a step that faults
changes none. -/
def Obligations.OnlyPushAndCallWriteMemory : Prop :=
  ∀ (i : Instr) (s t : State), exec i s = .next t →
    (stores i = false → SameMem s t) ∧
    (stores i = true → ∀ a : Byte, pushAddress s = .ok a → SameMemBut a s t) ∧
    (s.status ≠ .faulted → t.status = .faulted → SameMem s t)

/-- 00_scope.md R14: the output grows by one byte at its end, and only by PRN. -/
def Obligations.OnlyPrnAppendsToOutput : Prop :=
  ∀ (i : Instr) (s t : State), exec i s = .next t →
    ((∀ r, i ≠ .prn r) → t.out = s.out) ∧
    (∀ r, i = .prn r → s.status = .running → t.status ≠ .faulted →
      ∃ d : Fin 8, d.val = r.toNat ∧ t.out = s.out ++ [s.readReg d])

/-- 10_state.md R26, the table of new pc values, for an instruction that does not fault. A register target is read after
the push (`CALL R7`, decision D14). -/
def Obligations.ProgramCounterFollowsTheTable : Prop :=
  ∀ (i : Instr) (s t : State), s.status = .running → exec i s = .next t → t.status ≠ .faulted →
    match i with
    | .ldi _ _ => t.pc.toNat = s.pc.toNat + 3
    | .prn _ => t.pc.toNat = s.pc.toNat + 2
    | .add _ _ => t.pc.toNat = s.pc.toNat + 3
    | .mul _ _ => t.pc.toNat = s.pc.toNat + 3
    | .push _ => t.pc.toNat = s.pc.toNat + 2
    | .pop _ => t.pc.toNat = s.pc.toNat + 2
    | .call r => ∃ d : Fin 8, d.val = r.toNat ∧ t.pc = t.readReg d
    | .ret => t.pc = s.mem.read s.sp
    | .cmp _ _ => t.pc.toNat = s.pc.toNat + 3
    | .jeq r => ∃ d : Fin 8, d.val = r.toNat ∧
        if s.fl.e = true then t.pc = s.readReg d else t.pc.toNat = s.pc.toNat + 2
    | .jne r => ∃ d : Fin 8, d.val = r.toNat ∧
        if s.fl.e = false then t.pc = s.readReg d else t.pc.toNat = s.pc.toNat + 2
    | .jmp r => ∃ d : Fin 8, d.val = r.toNat ∧ t.pc = s.readReg d
    | .hlt => t.pc = s.pc

/-- The register frame of all thirteen instructions (10_state.md R24): a register that is neither the destination nor
register 7 of a stack instruction is unchanged, whether or not the instruction faults. -/
def Obligations.OnlyTheDestinationsAreWritten : Prop :=
  ∀ (i : Instr) (s t : State), exec i s = .next t → ∀ j : Fin 8, j.val ∉ destinations i → t.readReg j = s.readReg j

/-- Equal memories are equal data: two memories in canonical form that read alike everywhere are the same. -/
def Obligations.CanonicalMemoriesThatReadAlikeAreEqual : Prop :=
  ∀ m m' : Memory, m.wf → m'.wf → (∀ a : Byte, m.read a = m'.read a) → m = m'

/-! ### The source's family properties, over the bytes in memory -/

/-- 40_load_and_print.md R112: LDI r,v then PRN r appends exactly v, for every register, register 7 included. -/
def Obligations.LdiThenPrnEmitsTheImmediate : Prop :=
  ∀ (opc : OpcodeMap) (s : State) (r v : Byte) (d : Fin 8), opc.Distinct → s.status = .running →
    s.pc.toNat ≤ 250 → d.val = r.toNat → InstrAt opc (.ldi r v) s →
    (∀ a : Byte, a.toNat = s.pc.toNat + 3 → s.mem.read a = opc .prn) →
    (∀ a : Byte, a.toNat = s.pc.toNat + 4 → s.mem.read a = r) →
    ∃ t u, cycle opc s = .next t ∧ cycle opc t = .next u ∧
      u.out = s.out ++ [v] ∧ u.readReg d = v ∧ SameRegsBut d s u ∧ u.fl = s.fl ∧ SameMem s u ∧
      u.pc.toNat = s.pc.toNat + 5 ∧ SameControl s u

/-- 42_stack.md R137: PUSH r then POP r' carries x[r] to x[r'] and restores SP, for registers other than 7, when the
pushed byte does not land on the POP. -/
def Obligations.PushThenPopRoundTrips : Prop :=
  ∀ (opc : OpcodeMap) (s : State) (r r' : Byte) (d d' : Fin 8), opc.Distinct → s.status = .running →
    s.pc.toNat ≤ 251 → d.val = r.toNat → d'.val = r'.toNat → d ≠ 7 → d' ≠ 7 → InstrAt opc (.push r) s →
    (∀ a : Byte, a.toNat = s.pc.toNat + 2 → s.mem.read a = opc .pop) →
    (∀ a : Byte, a.toNat = s.pc.toNat + 3 → s.mem.read a = r') →
    ∀ p : Byte, pushAddress s = .ok p → p.toNat ≠ s.pc.toNat + 2 → p.toNat ≠ s.pc.toNat + 3 →
    ∃ t u, cycle opc s = .next t ∧ cycle opc t = .next u ∧
      u.readReg d' = s.readReg d ∧ u.sp = s.sp ∧ (∀ j : Fin 8, j ≠ d' → u.readReg j = s.readReg j) ∧
      u.mem.read p = s.readReg d ∧ SameMemBut p s u ∧ u.pc.toNat = s.pc.toNat + 4 ∧ u.fl = s.fl ∧ u.out = s.out ∧
      SameControl s u

/-- 43_control_transfer.md R150 (conflict C1): a CALL at c with SP = s0, then any state `v` that finds SP = s0 - 1 and
that cell as the CALL left it: RET resumes at c + 2 with SP = s0. -/
def Obligations.CallThenRetResumesAfterTheCall : Prop :=
  ∀ (s t v : State) (r : Byte), s.status = .running → exec (.call r) s = .next t → t.status ≠ .faulted →
    v.sp = t.sp → v.mem.read t.sp = t.mem.read t.sp →
    ∃ u, exec .ret v = .next u ∧ u.pc.toNat = s.pc.toNat + 2 ∧ u.sp = s.sp

/-- 20_memory.md R65: a store is seen by the very next fetch, with no barrier, when pc lands on the stored cell. -/
def Obligations.StoredByteIsFetchedNext : Prop :=
  ∀ (i : Instr) (s t : State) (a : Byte), stores i = true → s.status = .running → exec i s = .next t →
    t.status ≠ .faulted → pushAddress s = .ok a → t.pc = a →
    (∀ r, i = .push r → ∀ d : Fin 8, d.val = r.toNat →
      fetchByte t 0 = some (if d = 7 then a else s.readReg d)) ∧
    (∀ r, i = .call r → fetchByte t 0 = some (BitVec.ofNat 8 (s.pc.toNat + 2)))
end

