-- ==== Sys2Proof/Laws/Decode.lean ====
section
/-! SUPPORT. The small lemmas of the decoder: the look-up, and the operands after it. -/

namespace Sys2Proof

/-- The dispatch table lists every mnemonic. -/
theorem mem_mnemonics (m : Mnemonic) : m ∈ mnemonics := by cases m <;> decide

/-- What the look-up finds has the byte as its opcode. -/
theorem lookupOpcode_some {opc : OpcodeMap} {b : Byte} {m : Mnemonic} (h : lookupOpcode opc b = some m) : opc m = b := by
  simpa using List.find?_some h

/-- The look-up finds nothing exactly when the byte is the opcode of no instruction. -/
theorem lookupOpcode_none {opc : OpcodeMap} {b : Byte} : lookupOpcode opc b = none ↔ ∀ m, opc m ≠ b := by
  simp [lookupOpcode, mem_mnemonics]

/-- With distinct opcodes the look-up of an opcode finds its instruction. -/
theorem lookupOpcode_opc {opc : OpcodeMap} (h : opc.Distinct) (m : Mnemonic) : lookupOpcode opc (opc m) = some m := by
  cases hl : lookupOpcode opc (opc m) with
  | none => exact absurd rfl (lookupOpcode_none.mp hl m)
  | some m' => rw [h m' m (lookupOpcode_some hl)]

/-- Decoding starts with the look-up of the first byte. -/
theorem decodeWith_cons (opc : OpcodeMap) (b : Byte) (rest : List Byte) :
    decodeWith opc (b :: rest) =
      match lookupOpcode opc b with
      | none => .error (.unknownOpcode b)
      | some m => decodeOperands m rest := rfl

theorem takeOne_ok {f : Byte → Instr} {bs rest : List Byte} {i : Instr} (h : takeOne f bs = .ok (i, rest)) :
    ∃ r, bs = r :: rest ∧ i = f r := by
  cases bs with
  | nil => simp [takeOne] at h
  | cons r tl =>
    simp only [takeOne, Except.ok.injEq, Prod.mk.injEq] at h
    exact ⟨r, by rw [h.2], h.1.symm⟩

theorem takeTwo_ok {f : Byte → Byte → Instr} {bs rest : List Byte} {i : Instr} (h : takeTwo f bs = .ok (i, rest)) :
    ∃ a b, bs = a :: b :: rest ∧ i = f a b := by
  match bs, h with
  | a :: b :: tl, h =>
    simp only [takeTwo, Except.ok.injEq, Prod.mk.injEq] at h
    exact ⟨a, b, by rw [h.2], h.1.symm⟩

/-- After a known opcode the decoder finds the instruction, or the bytes are too few for its length. -/
theorem decodeOperands_cases (m : Mnemonic) (bs : List Byte) :
    (decodeOperands m bs = .error .truncated ∧ bs.length + 1 < m.format.length) ∨
      ∃ i rest, decodeOperands m bs = .ok (i, rest) ∧ i.mnemonic = m ∧ m.format.length ≤ bs.length + 1 := by
  match bs with
  | [] => cases m <;> simp [decodeOperands, takeOne, takeTwo, Mnemonic.format, Format.length, Instr.mnemonic]
  | [_] => cases m <;> simp [decodeOperands, takeOne, takeTwo, Mnemonic.format, Format.length, Instr.mnemonic]
  | _ :: _ :: _ => cases m <;> simp [decodeOperands, takeOne, takeTwo, Mnemonic.format, Format.length, Instr.mnemonic]

/-- The default opcode values are pairwise distinct, the one property the semantics need (30_encoding.md R90). -/
theorem defaultOpc_distinct : OpcodeMap.Distinct defaultOpc := by
  intro m m' h
  cases m <;> cases m' <;> first | rfl | exact absurd h (by decide)

end Sys2Proof
end

