-- ==== Sys2Proof/Laws/State.lean ====
section
/-! SUPPORT. One lemma per field per update of the state, true by rfl, and what the updates do to a register read. -/

namespace Sys2Proof.Machine

variable (s : State)

/-! ### writeReg -/

@[simp] theorem writeReg_regs (i : Fin 8) (v : Byte) : (s.writeReg i v).regs = s.regs.set i v := rfl
@[simp] theorem writeReg_pc (i : Fin 8) (v : Byte) : (s.writeReg i v).pc = s.pc := rfl
@[simp] theorem writeReg_fl (i : Fin 8) (v : Byte) : (s.writeReg i v).fl = s.fl := rfl
@[simp] theorem writeReg_status (i : Fin 8) (v : Byte) : (s.writeReg i v).status = s.status := rfl
@[simp] theorem writeReg_faultCause (i : Fin 8) (v : Byte) : (s.writeReg i v).faultCause = s.faultCause := rfl
@[simp] theorem writeReg_faultPc (i : Fin 8) (v : Byte) : (s.writeReg i v).faultPc = s.faultPc := rfl
@[simp] theorem writeReg_faultOpcode (i : Fin 8) (v : Byte) : (s.writeReg i v).faultOpcode = s.faultOpcode := rfl
@[simp] theorem writeReg_mem (i : Fin 8) (v : Byte) : (s.writeReg i v).mem = s.mem := rfl
@[simp] theorem writeReg_out (i : Fin 8) (v : Byte) : (s.writeReg i v).out = s.out := rfl

/-! ### withPc -/

@[simp] theorem withPc_regs (a : Byte) : (s.withPc a).regs = s.regs := rfl
@[simp] theorem withPc_pc (a : Byte) : (s.withPc a).pc = a := rfl
@[simp] theorem withPc_fl (a : Byte) : (s.withPc a).fl = s.fl := rfl
@[simp] theorem withPc_status (a : Byte) : (s.withPc a).status = s.status := rfl
@[simp] theorem withPc_faultCause (a : Byte) : (s.withPc a).faultCause = s.faultCause := rfl
@[simp] theorem withPc_faultPc (a : Byte) : (s.withPc a).faultPc = s.faultPc := rfl
@[simp] theorem withPc_faultOpcode (a : Byte) : (s.withPc a).faultOpcode = s.faultOpcode := rfl
@[simp] theorem withPc_mem (a : Byte) : (s.withPc a).mem = s.mem := rfl
@[simp] theorem withPc_out (a : Byte) : (s.withPc a).out = s.out := rfl

/-! ### withFlags -/

@[simp] theorem withFlags_regs (fl : Flags) : (s.withFlags fl).regs = s.regs := rfl
@[simp] theorem withFlags_pc (fl : Flags) : (s.withFlags fl).pc = s.pc := rfl
@[simp] theorem withFlags_fl (fl : Flags) : (s.withFlags fl).fl = fl := rfl
@[simp] theorem withFlags_status (fl : Flags) : (s.withFlags fl).status = s.status := rfl
@[simp] theorem withFlags_faultCause (fl : Flags) : (s.withFlags fl).faultCause = s.faultCause := rfl
@[simp] theorem withFlags_faultPc (fl : Flags) : (s.withFlags fl).faultPc = s.faultPc := rfl
@[simp] theorem withFlags_faultOpcode (fl : Flags) : (s.withFlags fl).faultOpcode = s.faultOpcode := rfl
@[simp] theorem withFlags_mem (fl : Flags) : (s.withFlags fl).mem = s.mem := rfl
@[simp] theorem withFlags_out (fl : Flags) : (s.withFlags fl).out = s.out := rfl

/-! ### store -/

@[simp] theorem store_regs (a v : Byte) : (s.store a v).regs = s.regs := rfl
@[simp] theorem store_pc (a v : Byte) : (s.store a v).pc = s.pc := rfl
@[simp] theorem store_fl (a v : Byte) : (s.store a v).fl = s.fl := rfl
@[simp] theorem store_status (a v : Byte) : (s.store a v).status = s.status := rfl
@[simp] theorem store_faultCause (a v : Byte) : (s.store a v).faultCause = s.faultCause := rfl
@[simp] theorem store_faultPc (a v : Byte) : (s.store a v).faultPc = s.faultPc := rfl
@[simp] theorem store_faultOpcode (a v : Byte) : (s.store a v).faultOpcode = s.faultOpcode := rfl
@[simp] theorem store_mem (a v : Byte) : (s.store a v).mem = s.mem.write a v := rfl
@[simp] theorem store_out (a v : Byte) : (s.store a v).out = s.out := rfl

/-! ### emit -/

@[simp] theorem emit_regs (v : Byte) : (s.emit v).regs = s.regs := rfl
@[simp] theorem emit_pc (v : Byte) : (s.emit v).pc = s.pc := rfl
@[simp] theorem emit_fl (v : Byte) : (s.emit v).fl = s.fl := rfl
@[simp] theorem emit_status (v : Byte) : (s.emit v).status = s.status := rfl
@[simp] theorem emit_faultCause (v : Byte) : (s.emit v).faultCause = s.faultCause := rfl
@[simp] theorem emit_faultPc (v : Byte) : (s.emit v).faultPc = s.faultPc := rfl
@[simp] theorem emit_faultOpcode (v : Byte) : (s.emit v).faultOpcode = s.faultOpcode := rfl
@[simp] theorem emit_mem (v : Byte) : (s.emit v).mem = s.mem := rfl
@[simp] theorem emit_out (v : Byte) : (s.emit v).out = s.out ++ [v] := rfl

/-! ### halt -/

@[simp] theorem halt_regs : (s.halt).regs = s.regs := rfl
@[simp] theorem halt_pc : (s.halt).pc = s.pc := rfl
@[simp] theorem halt_fl : (s.halt).fl = s.fl := rfl
@[simp] theorem halt_status : (s.halt).status = .halted := rfl
@[simp] theorem halt_faultCause : (s.halt).faultCause = s.faultCause := rfl
@[simp] theorem halt_faultPc : (s.halt).faultPc = s.faultPc := rfl
@[simp] theorem halt_faultOpcode : (s.halt).faultOpcode = s.faultOpcode := rfl
@[simp] theorem halt_mem : (s.halt).mem = s.mem := rfl
@[simp] theorem halt_out : (s.halt).out = s.out := rfl

/-! ### takeFault -/

@[simp] theorem takeFault_regs (c : FaultCause) : (takeFault c s).regs = s.regs := rfl
@[simp] theorem takeFault_pc (c : FaultCause) : (takeFault c s).pc = s.pc := rfl
@[simp] theorem takeFault_fl (c : FaultCause) : (takeFault c s).fl = s.fl := rfl
@[simp] theorem takeFault_status (c : FaultCause) : (takeFault c s).status = .faulted := rfl
@[simp] theorem takeFault_faultCause (c : FaultCause) : (takeFault c s).faultCause = some c := rfl
@[simp] theorem takeFault_faultPc (c : FaultCause) : (takeFault c s).faultPc = s.pc := rfl
@[simp] theorem takeFault_faultOpcode (c : FaultCause) : (takeFault c s).faultOpcode = s.mem.read s.pc := rfl
@[simp] theorem takeFault_mem (c : FaultCause) : (takeFault c s).mem = s.mem := rfl
@[simp] theorem takeFault_out (c : FaultCause) : (takeFault c s).out = s.out := rfl

/-! ### Reading a register after an update -/

@[simp] theorem readReg_withPc (a : Byte) (j : Fin 8) : (s.withPc a).readReg j = s.readReg j := rfl
@[simp] theorem readReg_withFlags (fl : Flags) (j : Fin 8) : (s.withFlags fl).readReg j = s.readReg j := rfl
@[simp] theorem readReg_store (a v : Byte) (j : Fin 8) : (s.store a v).readReg j = s.readReg j := rfl
@[simp] theorem readReg_emit (v : Byte) (j : Fin 8) : (s.emit v).readReg j = s.readReg j := rfl
@[simp] theorem readReg_halt (j : Fin 8) : (s.halt).readReg j = s.readReg j := rfl
@[simp] theorem readReg_takeFault (c : FaultCause) (j : Fin 8) : (takeFault c s).readReg j = s.readReg j := rfl

/-- A register read after a register write: the value written at its own index, the old value elsewhere. -/
theorem readReg_writeReg (i j : Fin 8) (v : Byte) :
    (s.writeReg i v).readReg j = if j = i then v else s.readReg j := by
  by_cases h : i = j
  · subst h; simp [State.readReg, State.writeReg]
  · have h' : (i : Nat) ≠ j := fun e => h (Fin.ext e)
    simp [State.readReg, State.writeReg, h', Ne.symm h]

@[simp] theorem readReg_writeReg_same (i : Fin 8) (v : Byte) : (s.writeReg i v).readReg i = v := by
  simp [readReg_writeReg]

theorem readReg_writeReg_of_ne {i j : Fin 8} (h : j ≠ i) (v : Byte) :
    (s.writeReg i v).readReg j = s.readReg j := by
  simp [readReg_writeReg, h]

/-! ### The stack pointer after an update -/

@[simp] theorem sp_withPc (a : Byte) : (s.withPc a).sp = s.sp := rfl
@[simp] theorem sp_withFlags (fl : Flags) : (s.withFlags fl).sp = s.sp := rfl
@[simp] theorem sp_store (a v : Byte) : (s.store a v).sp = s.sp := rfl
@[simp] theorem sp_emit (v : Byte) : (s.emit v).sp = s.sp := rfl
@[simp] theorem sp_halt : (s.halt).sp = s.sp := rfl
@[simp] theorem sp_takeFault (c : FaultCause) : (takeFault c s).sp = s.sp := rfl

theorem sp_writeReg (i : Fin 8) (v : Byte) :
    (s.writeReg i v).sp = if i = Config.spIndex then v else s.sp := by
  simp only [State.sp, readReg_writeReg, eq_comm]

theorem sp_eq_readReg : s.sp = s.readReg Config.spIndex := rfl

end Sys2Proof.Machine
end

