-- ==== Sys2Proof/Laws/Operands.lean ====
section
/-! SUPPORT. What each shared operation that may raise a fault can do, said once. -/

namespace Sys2Proof.Machine

/-! ### The rule of an instruction and its outcome -/

/-- A rule's outcome is a next state: the one it computed, or fault entry. -/
theorem complete_cases {s t : State} {r : Except FaultCause State} (h : complete s r = .next t) :
    r = .ok t ∨ ∃ c, r = .error c ∧ t = takeFault c s := by
  cases r with
  | ok u => simp only [complete, Host.Outcome.next.injEq] at h; exact .inl (by rw [h])
  | error c => simp only [complete, Host.Outcome.next.injEq] at h; exact .inr ⟨c, rfl, h.symm⟩

@[simp] theorem complete_ok (s t : State) : complete s (.ok t) = .next t := rfl

@[simp] theorem complete_error (s : State) (c : FaultCause) : complete s (.error c) = .next (takeFault c s) := rfl

/-- Sequencing of checks, taken apart. -/
theorem bind_eq_ok {α β : Type} {x : Except FaultCause α} {f : α → Except FaultCause β} {b : β} :
    x >>= f = .ok b ↔ ∃ a, x = .ok a ∧ f a = .ok b := by
  cases x <;> simp [bind, Except.bind]

/-- Sequencing of checks: the first fault decides (30_encoding.md R85). -/
theorem bind_eq_error {α β : Type} {x : Except FaultCause α} {f : α → Except FaultCause β} {c : FaultCause} :
    x >>= f = .error c ↔ x = .error c ∨ ∃ a, x = .ok a ∧ f a = .error c := by
  cases x <;> simp [bind, Except.bind]

@[simp] theorem ok_bind {α β : Type} (a : α) (f : α → Except FaultCause β) :
    (Except.ok a >>= f) = f a := rfl

@[simp] theorem error_bind {α β : Type} (c : FaultCause) (f : α → Except FaultCause β) :
    (Except.error c >>= f) = .error c := rfl

/-! ### Address arithmetic -/

/-- An address is formed exactly when the integer is its value. -/
theorem formAddress_eq_ok {n : Int} {a : Byte} : formAddress n = .ok a ↔ (a.toNat : Int) = n := by
  have ha := a.isLt
  unfold formAddress
  split
  · next h =>
    rw [Except.ok.injEq, ← BitVec.toNat_inj, BitVec.toNat_ofNat]
    omega
  · next h =>
    simp only [reduceCtorEq, false_iff]
    omega

/-- The only fault of address arithmetic, and when it is raised. -/
theorem formAddress_eq_error {n : Int} {c : FaultCause} :
    formAddress n = .error c ↔ c = .outOfBounds ∧ (n < 0 ∨ 255 < n) := by
  unfold formAddress
  split
  · simp only [reduceCtorEq, false_iff]; omega
  · rw [Except.error.injEq, eq_comm]
    have : n < 0 ∨ 255 < n := by omega
    simp [this]

theorem operandAddress_eq_ok {s : State} {k : Nat} {a : Byte} :
    operandAddress s k = .ok a ↔ a.toNat = s.pc.toNat + k := by
  rw [operandAddress, formAddress_eq_ok]; omega

theorem operandAddress_eq_error {s : State} {k : Nat} {c : FaultCause} :
    operandAddress s k = .error c ↔ c = .outOfBounds ∧ 255 < s.pc.toNat + k := by
  rw [operandAddress, formAddress_eq_error]
  exact and_congr_right fun _ => by omega

theorem nextPc_eq_ok {s : State} {w : Nat} {a : Byte} : nextPc s w = .ok a ↔ a.toNat = s.pc.toNat + w := by
  rw [nextPc, formAddress_eq_ok]; omega

theorem nextPc_eq_error {s : State} {w : Nat} {c : FaultCause} :
    nextPc s w = .error c ↔ c = .outOfBounds ∧ 255 < s.pc.toNat + w := by
  rw [nextPc, formAddress_eq_error]
  exact and_congr_right fun _ => by omega

theorem pushAddress_eq_ok {s : State} {a : Byte} : pushAddress s = .ok a ↔ a.toNat + 1 = s.sp.toNat := by
  rw [pushAddress, formAddress_eq_ok]; omega

theorem pushAddress_eq_error {s : State} {c : FaultCause} :
    pushAddress s = .error c ↔ c = .outOfBounds ∧ s.sp.toNat = 0 := by
  have := s.sp.isLt
  rw [pushAddress, formAddress_eq_error]
  exact and_congr_right fun _ => by omega

theorem incrementedSp_eq_ok {b a : Byte} : incrementedSp b = .ok a ↔ a.toNat = b.toNat + 1 := by
  rw [incrementedSp, formAddress_eq_ok]; omega

theorem incrementedSp_eq_error {b : Byte} {c : FaultCause} :
    incrementedSp b = .error c ↔ c = .outOfBounds ∧ b.toNat = 255 := by
  have := b.isLt
  rw [incrementedSp, formAddress_eq_error]
  exact and_congr_right fun _ => by omega

/-! ### Register operands -/

theorem regIndex_eq_ok {b : Byte} {r : Fin 8} : regIndex b = .ok r ↔ r.val = b.toNat := by
  unfold regIndex
  split
  · next h => rw [Except.ok.injEq, Fin.ext_iff, eq_comm]
  · next h => simp only [reduceCtorEq, false_iff]; omega

theorem regIndex_eq_error {b : Byte} {c : FaultCause} :
    regIndex b = .error c ↔ c = .invalidRegister ∧ 8 ≤ b.toNat := by
  unfold regIndex
  split
  · next h => simp only [reduceCtorEq, false_iff]; omega
  · next h => rw [Except.error.injEq, eq_comm]; have : 8 ≤ b.toNat := by omega
              simp [this]

theorem oneReg_eq_ok {s : State} {rb : Byte} {r : Fin 8} :
    oneReg s rb = .ok r ↔ s.pc.toNat ≤ 254 ∧ r.val = rb.toNat := by
  unfold oneReg
  rw [bind_eq_ok]
  simp only [operandAddress_eq_ok, regIndex_eq_ok]
  constructor
  · rintro ⟨a, ha, hr⟩; exact ⟨by have := a.isLt; omega, hr⟩
  · rintro ⟨hp, hr⟩; exact ⟨BitVec.ofNat 8 (s.pc.toNat + 1), by rw [BitVec.toNat_ofNat]; omega, hr⟩

theorem oneReg_eq_error {s : State} {rb : Byte} {c : FaultCause} :
    oneReg s rb = .error c ↔
      (c = .outOfBounds ∧ 254 < s.pc.toNat) ∨ (c = .invalidRegister ∧ s.pc.toNat ≤ 254 ∧ 8 ≤ rb.toNat) := by
  unfold oneReg
  rw [bind_eq_error]
  simp only [operandAddress_eq_ok, operandAddress_eq_error, regIndex_eq_error]
  constructor
  · rintro (⟨hc, h⟩ | ⟨a, ha, hc, hr⟩)
    · exact .inl ⟨hc, by omega⟩
    · exact .inr ⟨hc, by have := a.isLt; omega, hr⟩
  · rintro (⟨hc, h⟩ | ⟨hc, hp, hr⟩)
    · exact .inl ⟨hc, by omega⟩
    · exact .inr ⟨BitVec.ofNat 8 (s.pc.toNat + 1), by rw [BitVec.toNat_ofNat]; omega, hc, hr⟩

theorem regAndImm_eq_ok {s : State} {rb : Byte} {r : Fin 8} :
    regAndImm s rb = .ok r ↔ s.pc.toNat ≤ 253 ∧ r.val = rb.toNat := by
  unfold regAndImm
  rw [bind_eq_ok]
  simp only [bind_eq_ok, operandAddress_eq_ok, regIndex_eq_ok]
  constructor
  · rintro ⟨a, -, b, hb, hr⟩; exact ⟨by have := b.isLt; omega, hr⟩
  · rintro ⟨hp, hr⟩
    exact ⟨BitVec.ofNat 8 (s.pc.toNat + 1), by rw [BitVec.toNat_ofNat]; omega,
      BitVec.ofNat 8 (s.pc.toNat + 2), by rw [BitVec.toNat_ofNat]; omega, hr⟩

theorem regAndImm_eq_error {s : State} {rb : Byte} {c : FaultCause} :
    regAndImm s rb = .error c ↔
      (c = .outOfBounds ∧ 253 < s.pc.toNat) ∨ (c = .invalidRegister ∧ s.pc.toNat ≤ 253 ∧ 8 ≤ rb.toNat) := by
  unfold regAndImm
  simp only [bind_eq_error, operandAddress_eq_ok, operandAddress_eq_error, regIndex_eq_error]
  constructor
  · rintro (⟨hc, h⟩ | ⟨a, ha, ⟨hc, h⟩ | ⟨b, hb, hc, hr⟩⟩)
    · exact .inl ⟨hc, by omega⟩
    · exact .inl ⟨hc, by omega⟩
    · exact .inr ⟨hc, by have := b.isLt; omega, hr⟩
  · have key : s.pc.toNat ≤ 254 → (BitVec.ofNat 8 (s.pc.toNat + 1)).toNat = s.pc.toNat + 1 := by
      intro _; rw [BitVec.toNat_ofNat]; omega
    rintro (⟨hc, h⟩ | ⟨hc, hp, hr⟩)
    · by_cases h' : 255 < s.pc.toNat + 1
      · exact .inl ⟨hc, h'⟩
      · exact .inr ⟨_, key (by omega), .inl ⟨hc, by omega⟩⟩
    · exact .inr ⟨_, key (by omega), .inr ⟨BitVec.ofNat 8 (s.pc.toNat + 2), by rw [BitVec.toNat_ofNat]; omega, hc, hr⟩⟩

/-- The second register of a two-register form is checked after the first, which is checked after both addresses. -/
theorem twoRegs_eq_bind (s : State) (ab bb : Byte) :
    twoRegs s ab bb = regAndImm s ab >>= fun a => regIndex bb >>= fun b => .ok (a, b) := by
  unfold twoRegs regAndImm
  cases operandAddress s 1 with
  | error c => rfl
  | ok a =>
    cases operandAddress s 2 with
    | error c => rfl
    | ok b => rfl

theorem twoRegs_eq_ok {s : State} {ab bb : Byte} {p : Fin 8 × Fin 8} :
    twoRegs s ab bb = .ok p ↔ s.pc.toNat ≤ 253 ∧ p.1.val = ab.toNat ∧ p.2.val = bb.toNat := by
  obtain ⟨a, b⟩ := p
  simp only [twoRegs_eq_bind, bind_eq_ok, regAndImm_eq_ok, regIndex_eq_ok, Except.ok.injEq, Prod.mk.injEq]
  constructor
  · rintro ⟨a', ⟨hp, ha⟩, b', hb, rfl, rfl⟩; exact ⟨hp, ha, hb⟩
  · rintro ⟨hp, ha, hb⟩; exact ⟨a, ⟨hp, ha⟩, b, hb, rfl, rfl⟩

theorem twoRegs_eq_error {s : State} {ab bb : Byte} {c : FaultCause} :
    twoRegs s ab bb = .error c ↔
      (c = .outOfBounds ∧ 253 < s.pc.toNat) ∨
      (c = .invalidRegister ∧ s.pc.toNat ≤ 253 ∧ (8 ≤ ab.toNat ∨ 8 ≤ bb.toNat)) := by
  simp only [twoRegs_eq_bind, bind_eq_error, regAndImm_eq_ok, regAndImm_eq_error, regIndex_eq_error, reduceCtorEq,
    and_false, exists_false, or_false]
  constructor
  · rintro ((⟨hc, h⟩ | ⟨hc, hp, ha⟩) | ⟨a, ⟨hp, ha⟩, hc, hb⟩)
    · exact .inl ⟨hc, h⟩
    · exact .inr ⟨hc, hp, .inl ha⟩
    · exact .inr ⟨hc, hp, .inr hb⟩
  · rintro (⟨hc, h⟩ | ⟨hc, hp, hab⟩)
    · exact .inl (.inl ⟨hc, h⟩)
    · by_cases ha : 8 ≤ ab.toNat
      · exact .inl (.inr ⟨hc, hp, ha⟩)
      · exact .inr ⟨⟨ab.toNat, by omega⟩, ⟨hp, rfl⟩, hc, hab.resolve_left ha⟩

/-! ### The ALU -/

theorem aluArith_add (x y : Byte) : aluArith .add x y = .ok (x + y) := rfl

theorem aluArith_mul (x y : Byte) : aluArith .mul x y = .ok (x * y) := rfl

theorem aluCompare_cmp (x y : Byte) : aluCompare .cmp x y = .ok (compareFlags x y) := rfl

end Sys2Proof.Machine
end

