-- ==== Sys2Proof/Laws/Exec.lean ====
section
/-! SUPPORT. What each meaning can do, said once: a next state is fault entry, or the rule's own effect with the checks
that let it through. -/

namespace Sys2Proof.Machine

variable {s t : State} {rb ab bb v : Byte}

/-- The shape of a next state of an instruction that is fault entry: no other cause is raised by an instruction
(60_exceptions.md R181, 41_alu.md R125). -/
def FaultTaken (s t : State) : Prop := t = takeFault .outOfBounds s ∨ t = takeFault .invalidRegister s

/-- A rule whose checks raise no other fault than these two: fault entry or the state it computed. -/
theorem complete_cases' {r : Except FaultCause State}
    (hr : ∀ c, c ≠ .outOfBounds → c ≠ .invalidRegister → r ≠ .error c)
    (h : complete s r = .next t) : FaultTaken s t ∨ r = .ok t := by
  rcases complete_cases h with h | ⟨c, hc, ht⟩
  · exact .inr h
  · by_cases h1 : c = .outOfBounds
    · exact .inl (.inl (h1 ▸ ht))
    · by_cases h2 : c = .invalidRegister
      · exact .inl (.inr (h2 ▸ ht))
      · exact absurd hc (hr c h1 h2)

theorem pure_eq_ok {a b : State} : (pure a : Except FaultCause State) = .ok b ↔ a = b := by
  simp [pure, Except.pure]

theorem pure_ne_error {a : State} {c : FaultCause} : (pure a : Except FaultCause State) = .error c ↔ False := by
  simp [pure, Except.pure]

theorem execLdi_cases (h : execLdi rb v s = .next t) :
    FaultTaken s t ∨ ∃ (r : Fin 8) (n : Byte), r.val = rb.toNat ∧ n.toNat = s.pc.toNat + 3 ∧
      t = (s.writeReg r v).withPc n := by
  refine (complete_cases' ?_ h).imp_right fun h => ?_
  · intro c h1 h2
    simp only [ne_eq, bind_eq_error, regAndImm_eq_error, nextPc_eq_error, pure_ne_error, h1, h2, false_and,
      and_false, exists_false, or_self, not_false_eq_true]
  · simp only [bind_eq_ok, regAndImm_eq_ok, nextPc_eq_ok, pure_eq_ok] at h
    obtain ⟨r, ⟨-, hr⟩, n, hn, rfl⟩ := h
    exact ⟨r, n, hr, hn, rfl⟩

theorem execPrn_cases (h : execPrn rb s = .next t) :
    FaultTaken s t ∨ ∃ (r : Fin 8) (n : Byte), r.val = rb.toNat ∧ n.toNat = s.pc.toNat + 2 ∧
      t = (s.emit (s.readReg r)).withPc n := by
  refine (complete_cases' ?_ h).imp_right fun h => ?_
  · intro c h1 h2
    simp only [ne_eq, bind_eq_error, oneReg_eq_error, nextPc_eq_error, pure_ne_error, h1, h2, false_and,
      and_false, exists_false, or_self, not_false_eq_true]
  · simp only [bind_eq_ok, oneReg_eq_ok, nextPc_eq_ok, pure_eq_ok] at h
    obtain ⟨r, ⟨-, hr⟩, n, hn, rfl⟩ := h
    exact ⟨r, n, hr, hn, rfl⟩

theorem execAdd_cases (h : execAdd ab bb s = .next t) :
    FaultTaken s t ∨ ∃ (a b : Fin 8) (n : Byte), a.val = ab.toNat ∧ b.val = bb.toNat ∧ n.toNat = s.pc.toNat + 3 ∧
      t = (s.writeReg a (s.readReg a + s.readReg b)).withPc n := by
  refine (complete_cases' ?_ h).imp_right fun h => ?_
  · intro c h1 h2
    simp only [ne_eq, arithmetic, bind_eq_error, twoRegs_eq_error, nextPc_eq_error, aluArith_add, pure_ne_error, h1, h2, reduceCtorEq, false_and,
      and_false, exists_false, or_self, not_false_eq_true]
  · simp only [arithmetic, bind_eq_ok, twoRegs_eq_ok, nextPc_eq_ok, aluArith_add, Except.ok.injEq, pure_eq_ok] at h
    obtain ⟨⟨a, b⟩, ⟨-, ha, hb⟩, n, hn, w, rfl, rfl⟩ := h
    exact ⟨a, b, n, ha, hb, hn, rfl⟩

theorem execMul_cases (h : execMul ab bb s = .next t) :
    FaultTaken s t ∨ ∃ (a b : Fin 8) (n : Byte), a.val = ab.toNat ∧ b.val = bb.toNat ∧ n.toNat = s.pc.toNat + 3 ∧
      t = (s.writeReg a (s.readReg a * s.readReg b)).withPc n := by
  refine (complete_cases' ?_ h).imp_right fun h => ?_
  · intro c h1 h2
    simp only [ne_eq, arithmetic, bind_eq_error, twoRegs_eq_error, nextPc_eq_error, aluArith_mul, pure_ne_error, h1, h2, reduceCtorEq, false_and,
      and_false, exists_false, or_self, not_false_eq_true]
  · simp only [arithmetic, bind_eq_ok, twoRegs_eq_ok, nextPc_eq_ok, aluArith_mul, Except.ok.injEq, pure_eq_ok] at h
    obtain ⟨⟨a, b⟩, ⟨-, ha, hb⟩, n, hn, w, rfl, rfl⟩ := h
    exact ⟨a, b, n, ha, hb, hn, rfl⟩

theorem execCmp_cases (h : execCmp ab bb s = .next t) :
    FaultTaken s t ∨ ∃ (a b : Fin 8) (n : Byte), a.val = ab.toNat ∧ b.val = bb.toNat ∧ n.toNat = s.pc.toNat + 3 ∧
      t = (s.withFlags (compareFlags (s.readReg a) (s.readReg b))).withPc n := by
  refine (complete_cases' ?_ h).imp_right fun h => ?_
  · intro c h1 h2
    simp only [ne_eq, bind_eq_error, twoRegs_eq_error, nextPc_eq_error, aluCompare_cmp, pure_ne_error, h1, h2, reduceCtorEq, false_and,
      and_false, exists_false, or_self, not_false_eq_true]
  · simp only [bind_eq_ok, twoRegs_eq_ok, nextPc_eq_ok, aluCompare_cmp, Except.ok.injEq, pure_eq_ok] at h
    obtain ⟨⟨a, b⟩, ⟨-, ha, hb⟩, n, hn, fl, rfl, rfl⟩ := h
    exact ⟨a, b, n, ha, hb, hn, rfl⟩

theorem execPush_cases (h : execPush rb s = .next t) :
    FaultTaken s t ∨ ∃ (r : Fin 8) (a n : Byte), r.val = rb.toNat ∧ a.toNat + 1 = s.sp.toNat ∧
      n.toNat = s.pc.toNat + 2 ∧
      t = ((s.writeReg Config.spIndex a).store a ((s.writeReg Config.spIndex a).readReg r)).withPc n := by
  refine (complete_cases' ?_ h).imp_right fun h => ?_
  · intro c h1 h2
    simp only [ne_eq, bind_eq_error, oneReg_eq_error, pushAddress_eq_error, nextPc_eq_error, pure_ne_error, h1, h2, false_and,
      and_false, exists_false, or_self, not_false_eq_true]
  · simp only [bind_eq_ok, oneReg_eq_ok, pushAddress_eq_ok, nextPc_eq_ok, pure_eq_ok] at h
    obtain ⟨r, ⟨-, hr⟩, a, ha, n, hn, rfl⟩ := h
    exact ⟨r, a, n, hr, ha, hn, rfl⟩

theorem execPop_cases (h : execPop rb s = .next t) :
    FaultTaken s t ∨ ∃ (r : Fin 8) (sp' n : Byte), r.val = rb.toNat ∧
      sp'.toNat = (popBase s r (s.mem.read s.sp)).toNat + 1 ∧ n.toNat = s.pc.toNat + 2 ∧
      t = ((s.writeReg r (s.mem.read s.sp)).writeReg Config.spIndex sp').withPc n := by
  refine (complete_cases' ?_ h).imp_right fun h => ?_
  · intro c h1 h2
    simp only [ne_eq, bind_eq_error, oneReg_eq_error, incrementedSp_eq_error, nextPc_eq_error, pure_ne_error, h1, h2, false_and,
      and_false, exists_false, or_self, not_false_eq_true]
  · simp only [bind_eq_ok, oneReg_eq_ok, incrementedSp_eq_ok, nextPc_eq_ok, pure_eq_ok] at h
    obtain ⟨r, ⟨-, hr⟩, a, ha, n, hn, rfl⟩ := h
    exact ⟨r, a, n, hr, ha, hn, rfl⟩

theorem popBase_sp (s : State) (v : Byte) : popBase s Config.spIndex v = v := by
  simp [popBase, sp_writeReg]

theorem popBase_of_ne {r : Fin 8} (h : r ≠ Config.spIndex) (s : State) (v : Byte) : popBase s r v = s.sp := by
  simp [popBase, sp_writeReg, h]

theorem returnAddress_eq_ok {a : Byte} : returnAddress s = .ok a ↔ a.toNat = s.pc.toNat + 2 := by
  rw [returnAddress, formAddress_eq_ok]; omega

theorem returnAddress_eq_error {c : FaultCause} :
    returnAddress s = .error c ↔ c = .outOfBounds ∧ 255 < s.pc.toNat + 2 := by
  rw [returnAddress, formAddress_eq_error]
  exact and_congr_right fun _ => by omega

theorem execCall_cases (h : execCall rb s = .next t) :
    FaultTaken s t ∨ ∃ (r : Fin 8) (ra a : Byte), r.val = rb.toNat ∧ ra.toNat = s.pc.toNat + 2 ∧
      a.toNat + 1 = s.sp.toNat ∧
      t = ((s.writeReg Config.spIndex a).store a ra).withPc ((s.writeReg Config.spIndex a).readReg r) := by
  refine (complete_cases' ?_ h).imp_right fun h => ?_
  · intro c h1 h2
    simp only [ne_eq, bind_eq_error, oneReg_eq_error, returnAddress_eq_error, pushAddress_eq_error, pure_ne_error, h1, h2, false_and,
      and_false, exists_false, or_self, not_false_eq_true]
  · simp only [bind_eq_ok, oneReg_eq_ok, returnAddress_eq_ok, pushAddress_eq_ok, pure_eq_ok] at h
    obtain ⟨r, ⟨-, hr⟩, ra, hra, a, ha, rfl⟩ := h
    exact ⟨r, ra, a, hr, hra, ha, rfl⟩

theorem execRet_cases (h : execRet s = .next t) :
    FaultTaken s t ∨ ∃ sp' : Byte, sp'.toNat = s.sp.toNat + 1 ∧
      t = (s.withPc (s.mem.read s.sp)).writeReg Config.spIndex sp' := by
  refine (complete_cases' ?_ h).imp_right fun h => ?_
  · intro c h1 _
    simp only [ne_eq, bind_eq_error, incrementedSp_eq_error, pure_ne_error, h1, false_and,
      and_false, exists_false, or_self, not_false_eq_true]
  · simp only [bind_eq_ok, incrementedSp_eq_ok, pure_eq_ok] at h
    obtain ⟨a, ha, rfl⟩ := h
    exact ⟨a, ha, rfl⟩

/-- A conditional jump taken or fallen through, said once for JEQ and JNE. -/
theorem jumpIf_cases {taken : Bool} (h : complete s (jumpIf taken rb s) = .next t) :
    FaultTaken s t ∨ (∃ r : Fin 8, r.val = rb.toNat ∧ taken = true ∧ t = s.withPc (s.readReg r)) ∨
      ∃ n : Byte, taken = false ∧ n.toNat = s.pc.toNat + 2 ∧ t = s.withPc n := by
  cases taken
  · refine (complete_cases' ?_ h).imp_right fun h => ?_
    · intro c h1 h2
      simp only [ne_eq, jumpIf, Bool.false_eq_true, if_false, bind_eq_error, oneReg_eq_error, nextPc_eq_error, pure_ne_error, h1, h2, false_and,
      and_false, exists_false, or_self, not_false_eq_true]
    · simp only [jumpIf, Bool.false_eq_true, if_false, bind_eq_ok, oneReg_eq_ok, nextPc_eq_ok, pure_eq_ok] at h
      obtain ⟨r, -, n, hn, rfl⟩ := h
      exact .inr ⟨n, rfl, hn, rfl⟩
  · refine (complete_cases' ?_ h).imp_right fun h => ?_
    · intro c h1 h2
      simp only [ne_eq, jumpIf, if_true, bind_eq_error, oneReg_eq_error, pure_ne_error, h1, h2, false_and,
      and_false, exists_false, or_self, not_false_eq_true]
    · simp only [jumpIf, if_true, bind_eq_ok, oneReg_eq_ok, pure_eq_ok] at h
      obtain ⟨r, ⟨-, hr⟩, rfl⟩ := h
      exact .inl ⟨r, hr, rfl, rfl⟩

theorem execJeq_cases (h : execJeq rb s = .next t) :
    FaultTaken s t ∨ (∃ r : Fin 8, r.val = rb.toNat ∧ s.fl.e = true ∧ t = s.withPc (s.readReg r)) ∨
      ∃ n : Byte, s.fl.e = false ∧ n.toNat = s.pc.toNat + 2 ∧ t = s.withPc n :=
  jumpIf_cases h

theorem execJne_cases (h : execJne rb s = .next t) :
    FaultTaken s t ∨ (∃ r : Fin 8, r.val = rb.toNat ∧ s.fl.e = false ∧ t = s.withPc (s.readReg r)) ∨
      ∃ n : Byte, s.fl.e = true ∧ n.toNat = s.pc.toNat + 2 ∧ t = s.withPc n := by
  simpa using jumpIf_cases h

theorem execJmp_cases (h : execJmp rb s = .next t) :
    FaultTaken s t ∨ ∃ r : Fin 8, r.val = rb.toNat ∧ t = s.withPc (s.readReg r) := by
  refine (complete_cases' ?_ h).imp_right fun h => ?_
  · intro c h1 h2
    simp only [ne_eq, bind_eq_error, oneReg_eq_error, pure_ne_error, h1, h2, false_and,
      and_false, exists_false, or_self, not_false_eq_true]
  · simp only [bind_eq_ok, oneReg_eq_ok, pure_eq_ok] at h
    obtain ⟨r, ⟨-, hr⟩, rfl⟩ := h
    exact ⟨r, hr, rfl⟩

theorem execHlt_cases (h : execHlt s = .next t) : t = s.halt := by
  simpa [execHlt, eq_comm] using h

/-! ### What every instruction can do to one part of the state -/

/-- What an instruction does to the status and the fault record: fault entry, HLT, or nothing. -/
theorem exec_control {i : Instr} (h : exec i s = .next t) :
    FaultTaken s t ∨ (i = .hlt ∧ t = s.halt) ∨
      (i ≠ .hlt ∧ t.status = s.status ∧ t.faultCause = s.faultCause ∧ t.faultPc = s.faultPc ∧
        t.faultOpcode = s.faultOpcode) := by
  cases i with
  | hlt => exact .inr (.inl ⟨rfl, execHlt_cases h⟩)
  | ldi r v => exact (execLdi_cases h).imp_right fun ⟨_, _, _, _, e⟩ => .inr (by subst e; simp)
  | prn r => exact (execPrn_cases h).imp_right fun ⟨_, _, _, _, e⟩ => .inr (by subst e; simp)
  | add a b => exact (execAdd_cases h).imp_right fun ⟨_, _, _, _, _, _, e⟩ => .inr (by subst e; simp)
  | mul a b => exact (execMul_cases h).imp_right fun ⟨_, _, _, _, _, _, e⟩ => .inr (by subst e; simp)
  | cmp a b => exact (execCmp_cases h).imp_right fun ⟨_, _, _, _, _, _, e⟩ => .inr (by subst e; simp)
  | push r => exact (execPush_cases h).imp_right fun ⟨_, _, _, _, _, _, e⟩ => .inr (by subst e; simp)
  | pop r => exact (execPop_cases h).imp_right fun ⟨_, _, _, _, _, _, e⟩ => .inr (by subst e; simp)
  | call r => exact (execCall_cases h).imp_right fun ⟨_, _, _, _, _, _, e⟩ => .inr (by subst e; simp)
  | ret => exact (execRet_cases h).imp_right fun ⟨_, _, e⟩ => .inr (by subst e; simp)
  | jeq r =>
    refine (execJeq_cases h).imp_right fun e => .inr ?_
    obtain ⟨_, _, _, rfl⟩ | ⟨_, _, _, rfl⟩ := e <;> simp
  | jne r =>
    refine (execJne_cases h).imp_right fun e => .inr ?_
    obtain ⟨_, _, _, rfl⟩ | ⟨_, _, _, rfl⟩ := e <;> simp
  | jmp r => exact (execJmp_cases h).imp_right fun ⟨_, _, e⟩ => .inr (by subst e; simp)

/-- What an instruction does to memory: nothing, or the one store of PUSH or CALL at the address `pushAddress` gives. -/
theorem exec_memory {i : Instr} (h : exec i s = .next t) :
    t.mem = s.mem ∨ ((∃ r, i = .push r ∨ i = .call r) ∧ t.status = s.status ∧
      ∃ a v, pushAddress s = .ok a ∧ t.mem = s.mem.write a v) := by
  cases i with
  | hlt => left; rw [execHlt_cases h]; rfl
  | ldi r v => left; obtain (rfl | rfl) | ⟨_, _, _, _, rfl⟩ := execLdi_cases h <;> rfl
  | prn r => left; obtain (rfl | rfl) | ⟨_, _, _, _, rfl⟩ := execPrn_cases h <;> rfl
  | add a b => left; obtain (rfl | rfl) | ⟨_, _, _, _, _, _, rfl⟩ := execAdd_cases h <;> rfl
  | mul a b => left; obtain (rfl | rfl) | ⟨_, _, _, _, _, _, rfl⟩ := execMul_cases h <;> rfl
  | cmp a b => left; obtain (rfl | rfl) | ⟨_, _, _, _, _, _, rfl⟩ := execCmp_cases h <;> rfl
  | push r =>
    obtain (rfl | rfl) | ⟨_, a, _, _, ha, _, rfl⟩ := execPush_cases h
    · exact .inl rfl
    · exact .inl rfl
    · exact .inr ⟨⟨r, .inl rfl⟩, rfl, a, _, pushAddress_eq_ok.mpr ha, rfl⟩
  | pop r => left; obtain (rfl | rfl) | ⟨_, _, _, _, _, _, rfl⟩ := execPop_cases h <;> rfl
  | call r =>
    obtain (rfl | rfl) | ⟨_, _, a, _, _, ha, rfl⟩ := execCall_cases h
    · exact .inl rfl
    · exact .inl rfl
    · exact .inr ⟨⟨r, .inr rfl⟩, rfl, a, _, pushAddress_eq_ok.mpr ha, rfl⟩
  | ret => left; obtain (rfl | rfl) | ⟨_, _, rfl⟩ := execRet_cases h <;> rfl
  | jeq r => left; obtain (rfl | rfl) | ⟨_, _, _, rfl⟩ | ⟨_, _, _, rfl⟩ := execJeq_cases h <;> rfl
  | jne r => left; obtain (rfl | rfl) | ⟨_, _, _, rfl⟩ | ⟨_, _, _, rfl⟩ := execJne_cases h <;> rfl
  | jmp r => left; obtain (rfl | rfl) | ⟨_, _, rfl⟩ := execJmp_cases h <;> rfl

/-- What an instruction does to the flags: nothing, or CMP's comparison of its two registers. -/
theorem exec_flags {i : Instr} (h : exec i s = .next t) :
    t.fl = s.fl ∨ ∃ (ab bb : Byte) (a b : Fin 8), i = .cmp ab bb ∧
      t.fl = compareFlags (s.readReg a) (s.readReg b) := by
  cases i with
  | hlt => left; rw [execHlt_cases h]; rfl
  | ldi r v => left; obtain (rfl | rfl) | ⟨_, _, _, _, rfl⟩ := execLdi_cases h <;> rfl
  | prn r => left; obtain (rfl | rfl) | ⟨_, _, _, _, rfl⟩ := execPrn_cases h <;> rfl
  | add a b => left; obtain (rfl | rfl) | ⟨_, _, _, _, _, _, rfl⟩ := execAdd_cases h <;> rfl
  | mul a b => left; obtain (rfl | rfl) | ⟨_, _, _, _, _, _, rfl⟩ := execMul_cases h <;> rfl
  | cmp a b =>
    obtain (rfl | rfl) | ⟨d, e, _, _, _, _, rfl⟩ := execCmp_cases h
    · exact .inl rfl
    · exact .inl rfl
    · exact .inr ⟨a, b, d, e, rfl, rfl⟩
  | push r => left; obtain (rfl | rfl) | ⟨_, _, _, _, _, _, rfl⟩ := execPush_cases h <;> rfl
  | pop r => left; obtain (rfl | rfl) | ⟨_, _, _, _, _, _, rfl⟩ := execPop_cases h <;> rfl
  | call r => left; obtain (rfl | rfl) | ⟨_, _, _, _, _, _, rfl⟩ := execCall_cases h <;> rfl
  | ret => left; obtain (rfl | rfl) | ⟨_, _, rfl⟩ := execRet_cases h <;> rfl
  | jeq r => left; obtain (rfl | rfl) | ⟨_, _, _, rfl⟩ | ⟨_, _, _, rfl⟩ := execJeq_cases h <;> rfl
  | jne r => left; obtain (rfl | rfl) | ⟨_, _, _, rfl⟩ | ⟨_, _, _, rfl⟩ := execJne_cases h <;> rfl
  | jmp r => left; obtain (rfl | rfl) | ⟨_, _, rfl⟩ := execJmp_cases h <;> rfl

end Sys2Proof.Machine
end

