-- ==== Sys2Proof/Laws/Cycle.lean ====
section
/-! SUPPORT. The fetch and the cycle taken apart once. -/

namespace Sys2Proof.Machine

/-- A byte is fetched exactly when its address exists. -/
theorem fetchByte_eq_some {s : State} {k : Nat} {b : Byte} :
    fetchByte s k = some b ↔ ∃ a : Byte, a.toNat = s.pc.toNat + k ∧ s.mem.read a = b := by
  unfold fetchByte
  split
  · next a h =>
    rw [formAddress_eq_ok] at h
    constructor
    · intro hb; exact ⟨a, by omega, by simpa using hb⟩
    · rintro ⟨a', ha', hb⟩
      have : a' = a := BitVec.eq_of_toNat_eq (by omega)
      simp [← this, hb]
  · next c h =>
    rw [formAddress_eq_error] at h
    simp only [reduceCtorEq, false_iff, not_exists, not_and]
    intro a ha
    have := a.isLt
    omega

theorem fetchByte_eq_none {s : State} {k : Nat} : fetchByte s k = none ↔ 255 < s.pc.toNat + k := by
  unfold fetchByte
  split
  · next a h => rw [formAddress_eq_ok] at h; have := a.isLt; simp only [reduceCtorEq, false_iff]; omega
  · next c h => rw [formAddress_eq_error] at h; simp only [true_iff]; omega

/-- The opcode is always fetched: every pc has a cell (00_scope.md R11). -/
theorem fetchByte_zero (s : State) : fetchByte s 0 = some (s.mem.read s.pc) :=
  fetchByte_eq_some.mpr ⟨s.pc, rfl, rfl⟩

/-- The fetched bytes begin with the opcode byte M[pc]. -/
theorem fetchBytes_eq_cons (s : State) :
    fetchBytes s = s.mem.read s.pc :: [1, 2].filterMap (fetchByte s) := by
  simp [fetchBytes, fetchByte_zero]

/-- The fetched bytes stand at pc, pc + 1, pc + 2, in this order. -/
theorem fetchByte_of_getElem {s : State} {k : Nat} {b : Byte} (h : (fetchBytes s)[k]? = some b) :
    fetchByte s k = some b := by
  rw [fetchBytes_eq_cons] at h
  have mono : fetchByte s 1 = none → fetchByte s 2 = none := by
    simp only [fetchByte_eq_none]; omega
  have h0 := fetchByte_zero s
  generalize s.mem.read s.pc = b0 at h h0
  rcases h1 : fetchByte s 1 with _ | b1 <;> rcases h2 : fetchByte s 2 with _ | b2 <;>
    simp only [List.filterMap_cons, List.filterMap_nil, h1, h2] at h
  · rcases k with _ | k <;> simp_all
  · simp [mono h1] at h2
  · rcases k with _ | _ | k <;> simp_all
  · rcases k with _ | _ | _ | k <;> simp_all

/-- How many bytes are fetched: three, or those up to address 255. -/
theorem length_fetchBytes (s : State) : (fetchBytes s).length = min 3 (256 - s.pc.toNat) := by
  have hpc := s.pc.isLt
  have n1 := fetchByte_eq_none (s := s) (k := 1)
  have n2 := fetchByte_eq_none (s := s) (k := 2)
  rw [fetchBytes_eq_cons]
  rcases h1 : fetchByte s 1 with _ | b1 <;> rcases h2 : fetchByte s 2 with _ | b2 <;>
    simp only [h1, h2, true_iff, reduceCtorEq, false_iff, List.filterMap_cons, List.filterMap_nil, List.length_cons,
      List.length_nil] at n1 n2 ⊢ <;> omega

/-- What the cycle does, by status and by what the bytes decode to. -/
theorem cycle_running {opc : OpcodeMap} {s : State} (h : s.status = .running) :
    cycle opc s =
      match decodeWith opc (fetchBytes s) with
      | .ok (i, _) => exec i s
      | .error (.unknownOpcode _) => .next (takeFault .unknownOpcode s)
      | .error .truncated => .next (takeFault .outOfBounds s) := by
  obtain ⟨_, _, _, _, _, _, _, _, _⟩ := s
  cases h
  rfl

/-- A next state of the cycle comes from a running core: fault entry at the fetch, or an instruction's own meaning. -/
theorem cycle_cases {opc : OpcodeMap} {s t : State} (h : cycle opc s = .next t) :
    s.status = .running ∧
      (t = takeFault .unknownOpcode s ∨ t = takeFault .outOfBounds s ∨ ∃ i, exec i s = .next t) := by
  unfold cycle at h
  cases hs : s.status with
  | halted => simp [hs] at h
  | faulted => simp [hs] at h
  | running =>
    refine ⟨rfl, ?_⟩
    simp only [hs] at h
    split at h
    · exact .inr (.inr ⟨_, h⟩)
    · simp only [Host.Outcome.next.injEq] at h; exact .inl h.symm
    · simp only [Host.Outcome.next.injEq] at h; exact .inr (.inl h.symm)

end Sys2Proof.Machine
end

