-- ==== Sys2Proof/Laws/Memory.lean ====
section
/-! SUPPORT. The laws of memory: read after write, and that a write keeps the canonical form. The read laws need no
canonical form. -/

namespace Sys2Proof.Machine

theorem readCells_eraseCell_same (a : Nat) (cells : List Host.Cell) :
    readCells a (eraseCell a cells) = Memory.unlisted := by
  induction cells with
  | nil => rfl
  | cons c rest ih =>
    obtain ⟨b, w⟩ := c
    by_cases h : b = a
    · simpa [eraseCell, h] using ih
    · simpa [eraseCell, readCells, h] using ih

theorem readCells_eraseCell_of_ne {a b : Nat} (h : b ≠ a) (cells : List Host.Cell) :
    readCells b (eraseCell a cells) = readCells b cells := by
  induction cells with
  | nil => rfl
  | cons c rest ih =>
    obtain ⟨d, w⟩ := c
    by_cases hd : d = a
    · have : d ≠ b := fun e => h (e.symm.trans hd)
      subst hd
      simpa [eraseCell, readCells, this] using ih
    · by_cases hb : d = b
      · subst hb; simp [eraseCell, readCells, hd]
      · simpa [eraseCell, readCells, hd, hb] using ih

theorem readCells_insertCell_of_ne {a b : Nat} (h : b ≠ a) (v : Byte) (cells : List Host.Cell) :
    readCells b (insertCell a v cells) = readCells b cells := by
  have h' : a ≠ b := Ne.symm h
  induction cells with
  | nil => simp [insertCell, readCells, h']
  | cons c rest ih =>
    obtain ⟨d, w⟩ := c
    by_cases hd : a < d
    · simp [insertCell, hd, readCells, h']
    · simp [insertCell, hd, readCells, ih]

theorem readCells_insertCell_same (a : Nat) (v : Byte) (cells : List Host.Cell) (h : ∀ c ∈ cells, c.1 ≠ a) :
    readCells a (insertCell a v cells) = v := by
  induction cells with
  | nil => simp [insertCell, readCells]
  | cons c rest ih =>
    obtain ⟨d, w⟩ := c
    have hda : d ≠ a := h (d, w) (by simp)
    by_cases hd : a < d
    · simp [insertCell, hd, readCells]
    · simpa [insertCell, hd, readCells, hda] using ih fun c hc => h c (by simp [hc])

theorem mem_eraseCell {a : Nat} {c : Host.Cell} {cells : List Host.Cell} :
    c ∈ eraseCell a cells ↔ c ∈ cells ∧ c.1 ≠ a := by
  simp [eraseCell]

theorem mem_insertCell {a : Nat} {v : Byte} {c : Host.Cell} {cells : List Host.Cell} :
    c ∈ insertCell a v cells ↔ c = (a, v) ∨ c ∈ cells := by
  induction cells with
  | nil => simp [insertCell]
  | cons d rest ih =>
    obtain ⟨b, w⟩ := d
    by_cases h : a < b
    · simp [insertCell, h]
    · simp only [insertCell, h, if_false, List.mem_cons, ih]
      tauto

/-- Reading the cell just written gives the value written. -/
@[simp] theorem read_write_same (m : Memory) (a v : Byte) : (m.write a v).read a = v := by
  unfold Memory.write Memory.read
  split
  · next h => simpa [h] using readCells_eraseCell_same a.toNat m.cells
  · exact readCells_insertCell_same _ _ _ fun c hc => (mem_eraseCell.mp hc).2

/-- A write leaves every other cell alone. -/
theorem read_write_of_ne (m : Memory) {a b : Byte} (h : b ≠ a) (v : Byte) : (m.write a v).read b = m.read b := by
  have hn : b.toNat ≠ a.toNat := fun e => h (BitVec.eq_of_toNat_eq e)
  unfold Memory.write Memory.read
  split
  · exact readCells_eraseCell_of_ne hn _
  · exact (readCells_insertCell_of_ne hn v _).trans (readCells_eraseCell_of_ne hn _)

/-- Both laws in one. -/
theorem read_write (m : Memory) (a b v : Byte) : (m.write a v).read b = if b = a then v else m.read b := by
  by_cases h : b = a
  · simp [h]
  · simp [h, read_write_of_ne m h]

/-- An empty list of cells reads as the unlisted value everywhere. -/
@[simp] theorem read_empty (a : Byte) : (Memory.mk []).read a = Memory.unlisted := rfl

theorem pairwise_insertCell {a : Nat} {v : Byte} {cells : List Host.Cell}
    (hp : cells.Pairwise fun c d => c.1 < d.1) (hne : ∀ c ∈ cells, c.1 ≠ a) :
    (insertCell a v cells).Pairwise fun c d => c.1 < d.1 := by
  induction cells with
  | nil => simp [insertCell]
  | cons c rest ih =>
    obtain ⟨b, w⟩ := c
    obtain ⟨hlt, hrest⟩ := List.pairwise_cons.mp hp
    have hb : b ≠ a := hne (b, w) (by simp)
    by_cases h : a < b
    · simp only [insertCell, h, if_true]
      refine List.pairwise_cons.mpr ⟨fun d hd => ?_, hp⟩
      rcases List.mem_cons.mp hd with rfl | hd
      · exact h
      · exact h.trans (hlt d hd)
    · simp only [insertCell, h, if_false]
      refine List.pairwise_cons.mpr ⟨fun d hd => ?_, ih hrest fun c hc => hne c (by simp [hc])⟩
      rcases mem_insertCell.mp hd with rfl | hd
      · exact lt_of_le_of_ne (not_lt.mp h) hb
      · exact hlt d hd

/-- A write keeps the canonical form. -/
theorem wf_write {m : Memory} (h : m.wf) (a v : Byte) : (m.write a v).wf := by
  obtain ⟨hp, hall⟩ := h
  have hpe : (eraseCell a.toNat m.cells).Pairwise fun c d => c.1 < d.1 := List.Pairwise.filter _ hp
  have halle : ∀ c ∈ eraseCell a.toNat m.cells, c.1 < Config.memSize ∧ c.2 ≠ Memory.unlisted :=
    fun c hc => hall c (mem_eraseCell.mp hc).1
  have hlt : a.toNat < Config.memSize := a.isLt
  unfold Memory.write
  split
  · exact ⟨hpe, halle⟩
  · next hv =>
    refine ⟨pairwise_insertCell hpe fun c hc => (mem_eraseCell.mp hc).2, fun c hc => ?_⟩
    rcases mem_insertCell.mp hc with rfl | hc
    · exact ⟨hlt, hv⟩
    · exact halle c hc

/-- The empty list of cells is in canonical form. -/
theorem wf_empty : (Memory.mk []).wf := ⟨List.Pairwise.nil, fun _ h => nomatch h⟩

end Sys2Proof.Machine
end

