-- ==== Sys2Proof/Laws/Platform.lean ====
section
/-! SUPPORT. Loading a memory cell by cell. -/

namespace Sys2Proof.Machine

/-- Every byte is an address. -/
theorem mem_addresses (a : Byte) : a ∈ addresses :=
  List.mem_map.mpr ⟨a.toNat, List.mem_range.mpr a.isLt, by simp⟩

/-- No address is listed twice. -/
theorem addresses_nodup : addresses.Nodup := by
  refine List.Nodup.map_on (fun x hx y hy h => ?_) List.nodup_range
  have hx' : x < 256 := List.mem_range.mp hx
  have hy' : y < 256 := List.mem_range.mp hy
  have := congrArg BitVec.toNat h
  simp only [BitVec.toNat_ofNat] at this
  omega

/-- Writing an image at some addresses: it is read back at those, and the others are unlisted. -/
theorem read_foldr_write (image : Byte → Byte) (as : List Byte) (a : Byte) :
    (as.foldr (fun b m => m.write b (image b)) (⟨[]⟩ : Memory)).read a = if a ∈ as then image a else Memory.unlisted := by
  induction as with
  | nil => simp
  | cons b bs ih =>
    rw [List.foldr_cons, read_write, ih]
    by_cases h : a = b <;> simp [h]

/-- Writing cell by cell gives a memory in canonical form. -/
theorem wf_foldr_write (image : Byte → Byte) (as : List Byte) :
    (as.foldr (fun b m => m.write b (image b)) (⟨[]⟩ : Memory)).wf := by
  induction as with
  | nil => exact wf_empty
  | cons b bs ih => exact wf_write ih _ _

end Sys2Proof.Machine
end

