-- ==== Sys2Proof/Tests/Slice0.lean ====
section
/-! SUPPORT. The model's own tests: the well-formedness check, words written out from spec 30_encoding.md R90, one-step
vectors of spec 95_test_vectors.md (each test names its vector), and for every statement with hypotheses a concrete state
that meets them together. -/

namespace Sys2Proof.Tests

open Sys2Proof Sys2Proof.Machine

/-! ### Small states and readings -/

/-- The reset state with pc moved and some bytes stored at an address. -/
def start (pc : Nat) (bytes : List Byte) : State :=
  placeBytes { State.reset with pc := BitVec.ofNat 8 pc } 0 bytes

/-- With register `i` holding `v`. -/
def withReg (s : State) (i : Fin 8) (v : Nat) : State := s.writeReg i (BitVec.ofNat 8 v)

/-- With byte `v` in cell `a`. -/
def withCell (s : State) (a v : Nat) : State := s.store (BitVec.ofNat 8 a) (BitVec.ofNat 8 v)

/-- With the flags (L, G, E). -/
def withFl (s : State) (l g e : Bool) : State := s.withFlags ⟨l, g, e⟩

/-- What is read from the next state, if there is one. -/
def after {α : Type} (o : Host.Outcome State Fault Refusal) (f : State → α) : Option α :=
  match o with
  | .next t => some (f t)
  | .fault _ => none
  | .refused _ => none

/-- "Fault (c, p, o)" of 95_test_vectors.md, with the status. -/
def faultSeen (t : State) : Status × Nat × Byte × Byte := (t.status, t.faultCode, t.faultPc, t.faultOpcode)

/-- The cause code after executing `i` at pc with that stack pointer and those flags; 0 where the instruction completes. -/
def codeOf (i : Instr) (pc sp : Nat) (e : Bool) : Option Nat :=
  after (exec i (withFl (withReg (start pc []) 7 sp) false (!e) e)) State.faultCode

/-- A next state with a property, from what is read of it. -/
theorem exists_next {o : Host.Outcome State Fault Refusal} (P : State → Prop) [DecidablePred P]
    (h : after o (fun t => decide (P t)) = some true) : ∃ t, o = .next t ∧ P t := by
  cases o with
  | next t => exact ⟨t, rfl, by simpa [after] using h⟩
  | fault r => simp [after] at h
  | refused r => simp [after] at h

/-- The bytes of an instruction stand at pc when the fetch offers them first. -/
theorem instrAt_of_prefix {opc : OpcodeMap} {i : Instr} {s : State} (h : encodeWith opc i <+: fetchBytes s) :
    InstrAt opc i s := by
  intro k b hb
  obtain ⟨rest, hr⟩ := h
  have hk : (fetchBytes s)[k]? = some b := by
    rw [← hr, List.getElem?_append_left (List.getElem?_eq_some_iff.mp hb).1, hb]
  exact fetchByte_eq_some.mp (fetchByte_of_getElem hk)

/-! ### Well-formedness refuses a register operand above 7, in every position (30_encoding.md R84) -/

theorem test_wf_ldi : (Instr.ldi 8#8 0#8).wf = false ∧ (Instr.ldi 7#8 255#8).wf = true := by decide
theorem test_wf_prn : (Instr.prn 8#8).wf = false ∧ (Instr.prn 7#8).wf = true := by decide
theorem test_wf_add : (Instr.add 8#8 0#8).wf = false ∧ (Instr.add 0#8 8#8).wf = false ∧ (Instr.add 7#8 7#8).wf = true := by
  decide
theorem test_wf_mul : (Instr.mul 8#8 0#8).wf = false ∧ (Instr.mul 0#8 255#8).wf = false ∧ (Instr.mul 7#8 7#8).wf = true := by
  decide
theorem test_wf_cmp : (Instr.cmp 8#8 0#8).wf = false ∧ (Instr.cmp 0#8 8#8).wf = false ∧ (Instr.cmp 7#8 7#8).wf = true := by
  decide
theorem test_wf_push : (Instr.push 8#8).wf = false ∧ (Instr.push 7#8).wf = true := by decide
theorem test_wf_pop : (Instr.pop 8#8).wf = false ∧ (Instr.pop 7#8).wf = true := by decide
theorem test_wf_call : (Instr.call 8#8).wf = false ∧ (Instr.call 7#8).wf = true := by decide
theorem test_wf_jeq : (Instr.jeq 8#8).wf = false ∧ (Instr.jeq 7#8).wf = true := by decide
theorem test_wf_jne : (Instr.jne 8#8).wf = false ∧ (Instr.jne 7#8).wf = true := by decide
theorem test_wf_jmp : (Instr.jmp 8#8).wf = false ∧ (Instr.jmp 7#8).wf = true := by decide
theorem test_wf_no_operands : Instr.ret.wf = true ∧ Instr.hlt.wf = true := by decide

/-! ### Words written out bit by bit (30_encoding.md R82, R90; spec/opcode_table.json, column "encoding") -/

theorem test_decode_ldi : decode [0b10000010#8, 0b00000011#8, 0b11111111#8] = .ok (.ldi 3#8 255#8, []) := rfl
theorem test_decode_prn : decode [0b01000111#8, 0b00000111#8] = .ok (.prn 7#8, []) := rfl
theorem test_decode_add : decode [0b10100000#8, 0b00000000#8, 0b00000001#8] = .ok (.add 0#8 1#8, []) := rfl
theorem test_decode_mul : decode [0b10100010#8, 0b00000010#8, 0b00000101#8] = .ok (.mul 2#8 5#8, []) := rfl
theorem test_decode_push : decode [0b01000101#8, 0b00000110#8] = .ok (.push 6#8, []) := rfl
theorem test_decode_pop : decode [0b01000110#8, 0b00000001#8] = .ok (.pop 1#8, []) := rfl
theorem test_decode_call : decode [0b01010000#8, 0b00000001#8] = .ok (.call 1#8, []) := rfl
theorem test_decode_ret : decode [0b00010001#8, 0b00000001#8] = .ok (.ret, [1#8]) := rfl
theorem test_decode_cmp : decode [0b10100111#8, 0b00000100#8, 0b00000011#8] = .ok (.cmp 4#8 3#8, []) := rfl
theorem test_decode_jeq : decode [0b01010101#8, 0b00000010#8] = .ok (.jeq 2#8, []) := rfl
theorem test_decode_jne : decode [0b01010110#8, 0b00000010#8] = .ok (.jne 2#8, []) := rfl
theorem test_decode_jmp : decode [0b01010100#8, 0b00000111#8] = .ok (.jmp 7#8, []) := rfl
theorem test_decode_hlt : decode [0b00000001#8] = .ok (.hlt, []) := rfl
/-- V-UNK-1 and V-UNK-3: neither byte is an instruction. -/
theorem test_decode_unknown :
    decode [0x00#8] = .error (.unknownOpcode 0#8) ∧ decode [0x83#8, 0#8, 0#8] = .error (.unknownOpcode 0x83#8) := ⟨rfl, rfl⟩
/-- An illegal register operand still decodes; the machine faults on it (30_encoding.md R84). -/
theorem test_decode_illegal_register : decode [0x47#8, 0xFF#8] = .ok (.prn 255#8, []) := rfl

/-- The table numbers the opcode byte's bits 7..0 and a later byte's bits above it. -/
theorem test_table_word :
    decodeTableWord 8 0x82 = some (.ldi 0#8 0#8) ∧ decodeTableWord 24 0xFF0382 = some (.ldi 3#8 255#8) ∧
    decodeTableWord 16 0xFF0282 = some (.ldi 2#8 0#8) ∧ decodeTableWord 8 0x00 = none := by decide

/-- A placed word runs as the first instruction after reset, and from a state whose run has ended. -/
theorem test_fetch_word :
    after (step (State.reset.withFetchWord 24 0xFF0382)) (fun t => (t.readReg 3, t.pc)) = some (255#8, 3#8) ∧
    after (step (State.reset.halt.withFetchWord 8 0x01)) State.status = some .halted := by decide

/-! ### One step each (95_test_vectors.md) -/

/-- V-LDI-3. -/
theorem test_ldi_last_legal_place :
    after (step (start 252 [0x82#8, 0#8, 1#8])) (fun t => (t.readReg 0, t.pc, t.status)) =
      some (1#8, 255#8, .running) := by decide
/-- V-LDI-5. -/
theorem test_ldi_invalid_register_before_next_pc :
    after (step (start 253 [0x82#8, 9#8, 1#8])) faultSeen = some (.faulted, 4, 253#8, 0x82#8) := by decide
/-- V-PRN-1. -/
theorem test_prn_prints_sp :
    after (step (start 0 [0x47#8, 7#8])) (fun t => (t.out, t.pc)) = some ([244#8], 2#8) := by decide
/-- V-PRN-3. -/
theorem test_prn_out_of_bounds :
    after (step (withReg (start 254 [0x47#8, 0#8]) 0 9)) (fun t => (faultSeen t, t.out)) =
      some ((.faulted, 3, 254#8, 0x47#8), []) := by decide
/-- V-ADD-5. -/
theorem test_add_wraps_in_register_7 :
    after (step (withReg (start 0 [0xA0#8, 7#8, 0#8]) 0 0x10)) (fun t => (t.sp, t.readReg 0, t.pc)) =
      some (0x04#8, 0x10#8, 3#8) := by decide
/-- V-ADD-6. -/
theorem test_add_second_register_invalid :
    after (step (withReg (start 0 [0xA0#8, 0#8, 8#8]) 0 1)) (fun t => (faultSeen t, t.readReg 0)) =
      some ((.faulted, 4, 0#8, 0xA0#8), 1#8) := by decide
/-- V-MUL-4. -/
theorem test_mul_wraps :
    after (step (withReg (withReg (start 0 [0xA2#8, 0#8, 1#8]) 0 20) 1 13)) (fun t => (t.readReg 0, t.readReg 1)) =
      some (4#8, 13#8) := by decide
/-- V-MUL-6. -/
theorem test_mul_same_register :
    after (step (withReg (start 0 [0xA2#8, 4#8, 4#8]) 4 17)) (fun t => (t.readReg 4, t.pc)) = some (33#8, 3#8) := by decide
/-- V-CMP-4. -/
theorem test_cmp_is_unsigned :
    after (step (withReg (withReg (start 0 [0xA7#8, 0#8, 1#8]) 0 0x80) 1 0x7F)) (fun t => (t.fl, t.readReg 0)) =
      some (⟨false, true, false⟩, 0x80#8) := by decide
/-- V-CMP-6. -/
theorem test_cmp_clears_the_old_flags :
    after (step (withFl (withReg (withReg (start 0 [0xA7#8, 0#8, 1#8]) 0 5) 1 7) false false true)) State.fl =
      some ⟨true, false, false⟩ := by decide
/-- V-PUSH-2. -/
theorem test_push_r7_stores_the_new_sp :
    after (step (start 0 [0x45#8, 7#8])) (fun t => (t.sp, t.mem.read 0xF3#8, t.pc)) = some (0xF3#8, 0xF3#8, 2#8) := by
  decide
/-- V-PUSH-5. -/
theorem test_push_onto_its_own_opcode :
    after (step (withReg (withReg (start 16 [0x45#8, 0#8]) 0 1) 7 17)) (fun t => (t.sp, t.mem.read 16#8, t.pc)) =
      some (16#8, 1#8, 18#8) := by decide
/-- V-POP-2. -/
theorem test_pop_r7_adds_one_to_the_popped_byte :
    after (step (withCell (withReg (start 0 [0x46#8, 7#8]) 7 0xF3) 0xF3 0x40)) (fun t => (t.sp, t.pc)) =
      some (0x41#8, 2#8) := by decide
/-- V-POP-5. -/
theorem test_pop_above_255_faults :
    after (step (withCell (withReg (start 0 [0x46#8, 1#8]) 7 255) 255 0x33)) (fun t => (faultSeen t, t.readReg 1, t.sp)) =
      some ((.faulted, 3, 0#8, 0x46#8), 0#8, 255#8) := by decide
/-- V-CALL-2. -/
theorem test_call_r7_jumps_to_the_new_sp :
    after (step (start 4 [0x50#8, 7#8])) (fun t => (t.sp, t.mem.read 0xF3#8, t.pc)) = some (0xF3#8, 6#8, 0xF3#8) := by
  decide
/-- V-CALL-4. -/
theorem test_call_return_address_out_of_bounds :
    after (step (withReg (start 254 [0x50#8, 1#8]) 1 0x10)) (fun t => (faultSeen t, t.sp, t.mem.read 0xF3#8)) =
      some ((.faulted, 3, 254#8, 0x50#8), 0xF4#8, 0#8) := by decide
/-- V-RET-2. -/
theorem test_ret_is_legal_at_255 :
    after (step (withCell (withReg (start 255 [0x11#8]) 7 0xF3) 0xF3 6)) (fun t => (t.pc, t.sp)) =
      some (6#8, 0xF4#8) := by decide
/-- V-RET-3. -/
theorem test_ret_sp_out_of_bounds :
    after (step (withCell (withReg (start 0x10 [0x11#8]) 7 255) 255 6)) (fun t => (faultSeen t, t.pc, t.sp)) =
      some ((.faulted, 3, 16#8, 0x11#8), 16#8, 255#8) := by decide
/-- V-JEQ-4. -/
theorem test_jeq_taken_is_legal_at_254 :
    after (step (withFl (withReg (start 254 [0x55#8, 2#8]) 2 0x20) false false true)) (fun t => (t.pc, t.fl)) =
      some (0x20#8, ⟨false, false, true⟩) := by decide
/-- V-JEQ-6. -/
theorem test_jeq_not_taken_checks_its_operand :
    after (step (withFl (start 8 [0x55#8, 8#8]) false true false)) faultSeen = some (.faulted, 4, 8#8, 0x55#8) := by decide
/-- V-JNE-3. -/
theorem test_jne_before_any_comparison :
    after (step (withReg (start 8 [0x56#8, 2#8]) 2 0x20)) State.pc = some 0x20#8 := by decide
/-- V-JNE-4. -/
theorem test_jne_falls_through_to_256 :
    after (step (withFl (withReg (start 254 [0x56#8, 2#8]) 2 0x20) false false true)) faultSeen =
      some (.faulted, 3, 254#8, 0x56#8) := by decide
/-- V-JMP-3. -/
theorem test_jmp_operand_out_of_bounds :
    after (step (start 255 [0x54#8])) faultSeen = some (.faulted, 3, 255#8, 0x54#8) := by decide
/-- V-JMP-4. -/
theorem test_jmp_through_sp :
    after (step (start 8 [0x54#8, 7#8])) (fun t => (t.pc, t.sp)) = some (0xF4#8, 0xF4#8) := by decide
/-- V-HLT-1. -/
theorem test_hlt_keeps_pc :
    after (step (start 255 [0x01#8])) (fun t => (t.status, t.pc)) = some (.halted, 255#8) := by decide
/-- V-UNK-2. -/
theorem test_unknown_opcode_at_255 :
    after (step (start 255 [0xFF#8])) faultSeen = some (.faulted, 1, 255#8, 0xFF#8) := by decide
/-- V-UNK-4. -/
theorem test_no_step_when_halted : step (start 0 [0x82#8]).halt = .fault .halted := rfl
/-- 44_halt_and_cycle.md R174. -/
theorem test_no_step_when_faulted : step (takeFault .outOfBounds State.reset) = .fault .faulted := rfl
/-- 70_reset_and_hazards.md R221 and S7: the value 8 is printed as "8" and a line break, 255 as its decimal numeral. That the
line break is a line feed is the model's choice (log 19). -/
theorem test_render : renderByte 8#8 = "8\n" ∧ renderByte 255#8 = "255\n" := by decide

/-! ### Every clause of the instruction statements is met at the ends of its range

`codeOf i pc sp e`: 3 out of bounds, 4 invalid register, 0 completed. -/

theorem witness_LdiLoadsImmediate :
    [codeOf (.ldi 0#8 1#8) 255 0 false, codeOf (.ldi 8#8 1#8) 254 0 false, codeOf (.ldi 8#8 1#8) 253 0 false,
     codeOf (.ldi 255#8 1#8) 0 0 false, codeOf (.ldi 7#8 1#8) 253 0 false, codeOf (.ldi 7#8 1#8) 252 0 false,
     codeOf (.ldi 0#8 1#8) 0 0 false] = [some 3, some 3, some 4, some 4, some 3, some 0, some 0] := by decide
theorem witness_PrnEmitsRegister :
    [codeOf (.prn 8#8) 255 0 false, codeOf (.prn 8#8) 254 0 false, codeOf (.prn 255#8) 0 0 false,
     codeOf (.prn 7#8) 254 0 false, codeOf (.prn 7#8) 253 0 false, codeOf (.prn 0#8) 0 0 false] =
      [some 3, some 4, some 4, some 3, some 0, some 0] := by decide
theorem witness_AddWritesSumModulo256 :
    [codeOf (.add 8#8 8#8) 254 0 false, codeOf (.add 8#8 7#8) 253 0 false, codeOf (.add 7#8 8#8) 0 0 false,
     codeOf (.add 7#8 7#8) 253 0 false, codeOf (.add 7#8 0#8) 252 0 false, codeOf (.add 0#8 7#8) 0 0 false] =
      [some 3, some 4, some 4, some 3, some 0, some 0] := by decide
theorem witness_MulWritesProductModulo256 :
    [codeOf (.mul 8#8 8#8) 254 0 false, codeOf (.mul 8#8 7#8) 253 0 false, codeOf (.mul 7#8 8#8) 0 0 false,
     codeOf (.mul 7#8 7#8) 253 0 false, codeOf (.mul 7#8 0#8) 252 0 false, codeOf (.mul 0#8 7#8) 0 0 false] =
      [some 3, some 4, some 4, some 3, some 0, some 0] := by decide
theorem witness_CmpSetsExactlyOneFlag :
    [codeOf (.cmp 8#8 8#8) 254 0 false, codeOf (.cmp 8#8 7#8) 253 0 false, codeOf (.cmp 7#8 8#8) 0 0 false,
     codeOf (.cmp 7#8 7#8) 253 0 false, codeOf (.cmp 7#8 0#8) 252 0 false, codeOf (.cmp 0#8 7#8) 0 0 false] =
      [some 3, some 4, some 4, some 3, some 0, some 0] := by decide
theorem witness_PushStoresBelowStackPointer :
    [codeOf (.push 8#8) 255 1 false, codeOf (.push 8#8) 254 0 false, codeOf (.push 8#8) 0 0 false,
     codeOf (.push 7#8) 0 0 false, codeOf (.push 7#8) 254 1 false, codeOf (.push 7#8) 253 1 false,
     codeOf (.push 0#8) 0 255 false] = [some 3, some 4, some 4, some 3, some 3, some 0, some 0] := by decide
theorem witness_PopLoadsFromStackPointer :
    [codeOf (.pop 8#8) 255 0 false, codeOf (.pop 8#8) 254 255 false, codeOf (.pop 0#8) 254 0 false,
     codeOf (.pop 0#8) 253 255 false, codeOf (.pop 0#8) 253 254 false, codeOf (.pop 7#8) 253 255 false,
     after (exec (.pop 7#8) (withCell (start 0 []) 0xF4 255)) State.faultCode,
     after (exec (.pop 7#8) (withCell (start 0 []) 0xF4 254)) State.faultCode] =
      [some 3, some 4, some 3, some 3, some 0, some 0, some 3, some 0] := by decide
theorem witness_CallPushesReturnAddress :
    [codeOf (.call 8#8) 255 1 false, codeOf (.call 8#8) 254 0 false, codeOf (.call 7#8) 254 1 false,
     codeOf (.call 7#8) 253 0 false, codeOf (.call 7#8) 253 1 false, codeOf (.call 0#8) 0 255 false] =
      [some 3, some 4, some 3, some 3, some 0, some 0] := by decide
theorem witness_RetPopsProgramCounter :
    [codeOf .ret 0 255 false, codeOf .ret 255 254 false, codeOf .ret 0 0 false] = [some 3, some 0, some 0] := by decide
theorem witness_JeqJumpsWhenEqualSet :
    [codeOf (.jeq 8#8) 255 0 true, codeOf (.jeq 8#8) 254 0 true, codeOf (.jeq 8#8) 254 0 false,
     codeOf (.jeq 7#8) 254 0 false, codeOf (.jeq 7#8) 254 0 true, codeOf (.jeq 7#8) 253 0 false,
     codeOf (.jeq 0#8) 0 0 false] = [some 3, some 4, some 4, some 3, some 0, some 0, some 0] := by decide
theorem witness_JneJumpsWhenEqualClear :
    [codeOf (.jne 8#8) 255 0 true, codeOf (.jne 8#8) 254 0 false, codeOf (.jne 8#8) 254 0 true,
     codeOf (.jne 7#8) 254 0 true, codeOf (.jne 7#8) 254 0 false, codeOf (.jne 7#8) 253 0 true,
     codeOf (.jne 0#8) 0 0 true] = [some 3, some 4, some 4, some 3, some 0, some 0, some 0] := by decide
theorem witness_JmpLoadsProgramCounter :
    [codeOf (.jmp 0#8) 255 0 false, codeOf (.jmp 8#8) 254 0 false, codeOf (.jmp 7#8) 254 0 false,
     codeOf (.jmp 0#8) 0 0 false] = [some 3, some 4, some 0, some 0] := by decide
theorem witness_HltHaltsAndChangesNothingElse : [codeOf .hlt 0 0 false, codeOf .hlt 255 0 false] = [some 0, some 0] := by
  decide

/-! ### Witnesses of the other statements with hypotheses -/

/-- Each row of the table of R183 holds at one end of its range and fails beside it. -/
theorem witness_OutOfBoundsExactlyInTheTabledCases :
    (start 253 []).status = .running ∧ (∀ b ∈ registerOperands (.add 7#8 0#8), b.toNat ≤ 7) ∧
    [codeOf (.ldi 0#8 0#8) 253 9 false, codeOf (.ldi 0#8 0#8) 252 9 false, codeOf (.add 7#8 0#8) 253 9 false,
     codeOf (.add 7#8 0#8) 252 9 false, codeOf (.mul 0#8 0#8) 253 9 false, codeOf (.mul 0#8 0#8) 252 9 false,
     codeOf (.cmp 0#8 0#8) 253 9 false, codeOf (.cmp 0#8 0#8) 252 9 false, codeOf (.prn 0#8) 254 9 false,
     codeOf (.prn 0#8) 253 9 false, codeOf (.push 0#8) 254 1 false, codeOf (.push 0#8) 0 0 false,
     codeOf (.push 0#8) 253 1 false, codeOf (.pop 0#8) 254 9 false, codeOf (.pop 0#8) 0 255 false,
     codeOf (.pop 0#8) 253 254 false, codeOf (.pop 7#8) 0 255 false] =
      [some 3, some 0, some 3, some 0, some 3, some 0, some 3, some 0, some 3, some 0, some 3, some 3, some 0, some 3,
       some 3, some 0, some 0] ∧
    after (exec (.pop 7#8) (withCell (start 0 []) 0xF4 255)) State.faultCode = some 3 ∧
    [codeOf (.call 0#8) 254 1 false, codeOf (.call 0#8) 0 0 false, codeOf (.call 0#8) 253 1 false,
     codeOf .ret 0 255 false, codeOf .ret 0 254 false, codeOf (.jeq 0#8) 255 9 true, codeOf (.jeq 0#8) 254 9 false,
     codeOf (.jeq 0#8) 254 9 true, codeOf (.jne 0#8) 255 9 false, codeOf (.jne 0#8) 254 9 true,
     codeOf (.jne 0#8) 254 9 false, codeOf (.jmp 0#8) 255 9 false, codeOf (.jmp 0#8) 254 9 false,
     codeOf .hlt 255 9 false] =
      [some 3, some 3, some 0, some 3, some 0, some 3, some 3, some 0, some 3, some 3, some 0, some 3, some 0, some 0] := by
  decide

/-- Both sides of the condition: a three-byte instruction that ends at 255 and one that does not fit. -/
theorem witness_InvalidRegisterExactlyWhenOperandAboveSeven :
    (start 253 []).status = .running ∧ (253 + (Instr.add 0#8 8#8).length ≤ 256 ∧ ∃ b ∈ registerOperands (.add 0#8 8#8), 7 < b.toNat) ∧
    codeOf (.add 0#8 8#8) 253 9 false = some 4 ∧ codeOf (.add 0#8 8#8) 254 9 false = some 3 ∧
    codeOf (.jeq 8#8) 254 9 false = some 4 := by decide

/-- `add r0, r8` where it fits: the bytes stand at pc and the step faults with code 4. -/
theorem witness_FaultPriorityDecidesTheCauseCode_invalidRegister :
    defaultOpc.Distinct ∧ InstrAt defaultOpc (.add 0#8 8#8) (start 253 [0xA0#8, 0#8, 8#8]) ∧
    (∃ b ∈ registerOperands (.add 0#8 8#8), 7 < b.toNat) ∧
    ∃ t, cycle defaultOpc (start 253 [0xA0#8, 0#8, 8#8]) = .next t ∧ t.status = .faulted ∧ t.faultCode = 4 := by
  refine ⟨defaultOpc_distinct, instrAt_of_prefix (by decide), by decide, exists_next _ (by decide)⟩

/-- `push r0` with the stack pointer at 0: its bytes stand at pc, its operand is legal, and it faults with code 3. -/
theorem witness_FaultPriorityDecidesTheCauseCode_outOfBounds :
    InstrAt defaultOpc (.push 0#8) (withReg (start 16 [0x45#8, 0#8]) 7 0) ∧
    (∀ b ∈ registerOperands (.push 0#8), b.toNat ≤ 7) ∧
    ∃ t, cycle defaultOpc (withReg (start 16 [0x45#8, 0#8]) 7 0) = .next t ∧ t.status = .faulted ∧ t.faultCode = 3 := by
  refine ⟨instrAt_of_prefix (by decide), by decide, exists_next _ (by decide)⟩

/-- `add` at 254, two of its three bytes inside memory. -/
theorem witness_FaultPriorityDecidesTheCauseCode_truncated :
    defaultOpc .add = (start 254 [0xA0#8, 8#8]).mem.read (start 254 [0xA0#8, 8#8]).pc ∧
    256 < (start 254 [0xA0#8, 8#8]).pc.toNat + (Mnemonic.add).format.length ∧
    ∃ t, cycle defaultOpc (start 254 [0xA0#8, 8#8]) = .next t ∧ t.status = .faulted ∧ t.faultCode = 3 :=
  ⟨by decide, by decide, exists_next _ (by decide)⟩

/-- An unknown opcode at the top of memory. Also the witness of the first clauses of `FaultPriorityDecidesTheCauseCode`
and of `StepFollowsTheCycle`. -/
theorem witness_UnknownOpcodeFaultsAtFetch :
    (start 255 [0xFF#8]).status = .running ∧
    (∀ m, defaultOpc m ≠ (start 255 [0xFF#8]).mem.read (start 255 [0xFF#8]).pc) ∧
    ∃ t, cycle defaultOpc (start 255 [0xFF#8]) = .next t ∧ t.status = .faulted ∧ t.faultCode = 1 := by
  refine ⟨rfl, fun m => ?_, exists_next _ (by decide)⟩
  cases m <;> decide

theorem witness_FaultingStepDoesOnlyFaultEntry :
    ∃ t, cycle defaultOpc (start 254 [0x54#8, 8#8]) = .next t ∧ t.status = .faulted := exists_next _ (by decide)

theorem witness_RunningCoreAlwaysSteps : (start 0 []).status = .running := by decide

/-- A step from a state whose record is None. -/
theorem witness_NoStepRaisesUnsupportedOperation :
    (start 0 [0x45#8, 0#8]).status = .running ∧ (start 0 [0x45#8, 0#8]).faultCause ≠ some .unsupportedOperation ∧
    ∃ t, cycle defaultOpc (start 0 [0x45#8, 0#8]) = .next t ∧ t.status = .running :=
  ⟨by decide, by decide, exists_next _ (by decide)⟩

/-- Fetching at 254: two bytes are offered and one instruction of two bytes is read. -/
theorem witness_StepRunsTheDecodedInstruction :
    (start 254 [0x54#8, 7#8]).status = .running ∧ decode (fetchBytes (start 254 [0x54#8, 7#8])) = .ok (.jmp 7#8, []) := by
  have h : fetchBytes (start 254 [0x54#8, 7#8]) = [0x54#8, 7#8] := by decide
  exact ⟨by decide, by rw [h]; rfl⟩

/-- HLT at 255 stands at pc, and the step ends Halted; the other clauses of `StepFollowsTheCycle` are met by the
witnesses of `FaultPriority` and `UnknownOpcode` above. -/
theorem witness_StepFollowsTheCycle :
    defaultOpc.Distinct ∧ (start 255 [0x01#8]).status = .running ∧ InstrAt defaultOpc .hlt (start 255 [0x01#8]) ∧
    (∃ t, cycle defaultOpc (start 255 [0x01#8]) = .next t ∧ t.status = .halted) ∧
    (start 0 []).halt.status ≠ .running := by
  exact ⟨defaultOpc_distinct, by decide, instrAt_of_prefix (by decide), exists_next _ (by decide), by decide⟩

theorem witness_TerminalStatesHaveNoStep :
    State.reset.halt.status = .halted ∧ (takeFault .invalidRegister State.reset).status = .faulted := ⟨rfl, rfl⟩

/-- P10 of 95_test_vectors.md after its first step: JMP R0 at 3 with R0 = 3. -/
theorem witness_SelfJumpNeverEnds :
    (withReg (start 3 [0x54#8, 0#8]) 0 3).status = .running ∧
    InstrAt defaultOpc (.jmp 0#8) (withReg (start 3 [0x54#8, 0#8]) 0 3) ∧ (0 : Fin 8).val = (0#8).toNat ∧
    (withReg (start 3 [0x54#8, 0#8]) 0 3).readReg 0 = (withReg (start 3 [0x54#8, 0#8]) 0 3).pc := by
  exact ⟨by decide, instrAt_of_prefix (by decide), rfl, by decide⟩

theorem witness_DecodeOfEncodeReturnsTheInstruction : defaultOpc.Distinct := defaultOpc_distinct

/-- Both kinds of byte exist: an opcode and a byte that is none. -/
theorem witness_EveryByteIsOneOpcodeOrUnknown :
    defaultOpc.Distinct ∧ lookupOpcode defaultOpc 0x01#8 = some .hlt ∧ lookupOpcode defaultOpc 0x00#8 = none :=
  ⟨defaultOpc_distinct, rfl, rfl⟩

theorem witness_UnknownOpcodesAre243 : defaultOpc.Distinct := defaultOpc_distinct

theorem witness_EncodeOfDecodeReturnsTheBytes :
    decodeWith defaultOpc [0x82#8, 0xFF#8, 1#8, 9#8] = .ok (.ldi 0xFF#8 1#8, [9#8]) := rfl

theorem witness_PlacedWordRunsNext :
    (start 253 []).pc.toNat ≤ 253 ∧ decodeTableWord 24 0x0903A0 = some (.add 3#8 9#8) := ⟨by decide, rfl⟩

/-- Both clauses at their ends: 256 bytes and 257. -/
theorem witness_LoaderPlacesTheProgramFromZero :
    (List.replicate 256 1#8).length ≤ 256 ∧ 256 < (List.replicate 257 1#8).length ∧
    loadProgram (List.replicate 257 1#8) = none := by
  have h : 256 < (List.replicate 257 1#8).length := by rw [List.length_replicate]; decide
  exact ⟨by rw [List.length_replicate], h, if_neg (Nat.not_le.mpr h)⟩

theorem witness_ExitStatusZeroOnlyForCleanEnd : Config.exitFault ≠ 0 := by decide

/-- A state of the middle of a run: code and data listed, flags and output set, an old fault record of no meaning. -/
def midRun : State :=
  { regs := #v[5#8, 7#8, 0x20#8, 0#8, 0#8, 0#8, 0#8, 0xF3#8]
    pc := 3#8
    fl := ⟨true, false, false⟩
    status := .running
    faultCause := none
    faultPc := 9#8
    faultOpcode := 9#8
    mem := ⟨[(3, 0x45#8), (4, 2#8), (0xF3, 6#8)]⟩
    out := [1#8] }

/-- The invariant holds of `midRun`, and a step leads on from it (PUSH R2). -/
theorem witness_EveryStepKeepsTheInvariant :
    Inv midRun ∧ ∃ t, cycle defaultOpc midRun = .next t ∧ t.status = .running ∧ t.mem.read 0xF2#8 = 0x20#8 := by
  refine ⟨⟨?_, .inr (.inl rfl), ?_⟩, exists_next _ (by decide)⟩
  · decide
  · show midRun.status ≠ .faulted
    decide

/-- Every shape of the flags that the invariant allows is reached by one comparison or none. -/
theorem witness_FlagsAreNoneOrTheLastComparison :
    Reachable (applyReset (imageMemory fun _ => 0#8) State.reset) ∧
    ∃ t, exec (.cmp 0#8 1#8) midRun = .next t ∧ t.status ≠ .faulted ∧ t.fl = ⟨true, false, false⟩ := by
  exact ⟨.launch _ _, exists_next _ (by decide)⟩

/-- Two states that differ in L and G, and only there. -/
theorem witness_LessAndGreaterInfluenceNothing :
    AgreeButLG midRun (withFl midRun false true false) ∧ withFl midRun false true false ≠ midRun ∧
    ∃ t, cycle defaultOpc midRun = .next t := by
  refine ⟨⟨rfl, rfl, rfl, rfl, rfl, rfl, rfl, rfl, rfl⟩, by decide, (exists_next (fun _ => True) (by decide)).imp fun _ h => h.1⟩

/-- Two states that differ in the record and the output, and only there, at a PRN. -/
theorem witness_RecordAndOutputAreNeverRead :
    AgreeButRecordAndOut (start 0 [0x47#8, 7#8]) ((start 0 [0x47#8, 7#8]).emit 3#8) ∧
    (start 0 [0x47#8, 7#8]).emit 3#8 ≠ start 0 [0x47#8, 7#8] ∧
    ∃ t, cycle defaultOpc (start 0 [0x47#8, 7#8]) = .next t ∧ t.out = [0xF4#8] := by
  refine ⟨⟨rfl, rfl, rfl, rfl, rfl⟩, by decide, exists_next _ (by decide)⟩

/-- A storing form that completes, one that faults, and a form that stores nothing. -/
theorem witness_OnlyPushAndCallWriteMemory :
    (∃ t, exec (.call 2#8) midRun = .next t ∧ stores (.call 2#8) = true ∧ pushAddress midRun = .ok 0xF2#8) ∧
    (∃ t, exec (.push 8#8) midRun = .next t ∧ midRun.status ≠ .faulted ∧ t.status = .faulted) ∧
    (∃ t, exec (.pop 2#8) midRun = .next t ∧ stores (.pop 2#8) = false) := by
  exact ⟨exists_next _ (by decide), exists_next _ (by decide), exists_next _ (by decide)⟩

theorem witness_OnlyPrnAppendsToOutput :
    midRun.status = .running ∧ ∃ t, exec (.prn 2#8) midRun = .next t ∧ t.status ≠ .faulted ∧ t.out = [1#8, 0x20#8] := by
  exact ⟨rfl, exists_next _ (by decide)⟩

/-- Every row of the pc table completes somewhere: no arm is empty. Also a witness of `OnlyTheDestinationsAreWritten`. -/
theorem witness_ProgramCounterFollowsTheTable :
    midRun.status = .running ∧
    [Instr.ldi 0#8 9#8, .prn 0#8, .add 0#8 1#8, .mul 0#8 1#8, .push 0#8, .pop 0#8, .call 2#8, .ret, .cmp 0#8 1#8,
      .jeq 2#8, .jne 2#8, .jmp 2#8, .hlt].map (fun i => after (exec i midRun) fun t => (t.pc, t.faultCode)) =
    [some (6#8, 0), some (5#8, 0), some (6#8, 0), some (6#8, 0), some (5#8, 0), some (5#8, 0), some (0x20#8, 0),
      some (6#8, 0), some (6#8, 0), some (5#8, 0), some (0x20#8, 0), some (0x20#8, 0), some (3#8, 0)] := by decide

/-- A register that is no destination. -/
theorem witness_OnlyTheDestinationsAreWritten :
    ∃ t, exec (.pop 2#8) midRun = .next t ∧ (3 : Fin 8).val ∉ destinations (.pop 2#8) := exists_next _ (by decide)

/-- A memory in canonical form, and the same memory got by other writes. -/
theorem witness_CanonicalMemoriesThatReadAlikeAreEqual :
    midRun.mem.wf ∧ ((midRun.mem.write 4#8 0#8).write 4#8 2#8).wf ∧ (midRun.mem.write 4#8 0#8).write 4#8 2#8 = midRun.mem := by
  decide

/-- S1 of 95_test_vectors.md at the last pc the statement covers. -/
theorem witness_LdiThenPrnEmitsTheImmediate :
    defaultOpc.Distinct ∧ (start 250 [0x82#8, 7#8, 0xFF#8, 0x47#8, 7#8]).status = .running ∧
    InstrAt defaultOpc (.ldi 7#8 0xFF#8) (start 250 [0x82#8, 7#8, 0xFF#8, 0x47#8, 7#8]) ∧
    (7 : Fin 8).val = (7#8).toNat ∧
    (start 250 [0x82#8, 7#8, 0xFF#8, 0x47#8, 7#8]).mem.read 253#8 = defaultOpc .prn ∧
    (start 250 [0x82#8, 7#8, 0xFF#8, 0x47#8, 7#8]).mem.read 254#8 = 7#8 := by
  exact ⟨defaultOpc_distinct, by decide, instrAt_of_prefix (by decide), rfl, by decide, by decide⟩

/-- S3 of 95_test_vectors.md. -/
theorem witness_PushThenPopRoundTrips :
    defaultOpc.Distinct ∧ (start 0 [0x45#8, 0#8, 0x46#8, 1#8]).status = .running ∧
    InstrAt defaultOpc (.push 0#8) (start 0 [0x45#8, 0#8, 0x46#8, 1#8]) ∧ (0 : Fin 8) ≠ 7 ∧ (1 : Fin 8) ≠ 7 ∧
    (start 0 [0x45#8, 0#8, 0x46#8, 1#8]).mem.read 2#8 = defaultOpc .pop ∧
    (start 0 [0x45#8, 0#8, 0x46#8, 1#8]).mem.read 3#8 = 1#8 ∧
    pushAddress (start 0 [0x45#8, 0#8, 0x46#8, 1#8]) = .ok 0xF3#8 := by
  exact ⟨defaultOpc_distinct, by decide, instrAt_of_prefix (by decide), by decide, by decide, by decide, by decide, by decide⟩

/-- S4 of 95_test_vectors.md: the state after the CALL is itself a state the subroutine may return from. -/
theorem witness_CallThenRetResumesAfterTheCall :
    (withReg (start 3 [0x50#8, 1#8]) 1 6).status = .running ∧
    ∃ t, exec (.call 1#8) (withReg (start 3 [0x50#8, 1#8]) 1 6) = .next t ∧ t.status ≠ .faulted ∧ t.pc = 6#8 := by
  exact ⟨rfl, exists_next _ (by decide)⟩

/-- P8 of 95_test_vectors.md: a PUSH onto the next instruction, and a CALL to its own stack slot (V-CALL-2). -/
theorem witness_StoredByteIsFetchedNext :
    (∃ t, exec (.push 0#8) (withReg (withReg (start 6 [0x45#8, 0#8]) 0 1) 7 9) = .next t ∧ t.status ≠ .faulted ∧
      pushAddress (withReg (withReg (start 6 [0x45#8, 0#8]) 0 1) 7 9) = .ok 8#8 ∧ t.pc = 8#8) ∧
    (∃ t, exec (.call 7#8) (start 4 [0x50#8, 7#8]) = .next t ∧ t.status ≠ .faulted ∧
      pushAddress (start 4 [0x50#8, 7#8]) = .ok 0xF3#8 ∧ t.pc = 0xF3#8) := by
  exact ⟨exists_next _ (by decide), exists_next _ (by decide)⟩

end Sys2Proof.Tests
end

namespace Sys2Proof.Machine

variable {s t : State} {rb : Byte}

/-! ### The output -/

/-- Fault entry writes the status (60_exceptions.md R188). -/
theorem FaultTaken.status_eq (h : FaultTaken s t) : t.status = .faulted := by
  obtain rfl | rfl := h <;> rfl

/-- Fault entry emits nothing (60_exceptions.md R190). -/
theorem FaultTaken.out_eq (h : FaultTaken s t) : t.out = s.out := by
  obtain rfl | rfl := h <;> rfl

/-- A PRN that does not fault emits the byte of its register (40_load_and_print.md R111). -/
theorem execPrn_out (h : execPrn rb s = .next t) (hf : t.status ≠ .faulted) :
    ∃ r : Fin 8, r.val = rb.toNat ∧ t.out = s.out ++ [s.readReg r] := by
  obtain hfault | ⟨r, n, hr, -, rfl⟩ := execPrn_cases h
  · exact absurd hfault.status_eq hf
  · exact ⟨r, hr, by simp⟩

/-- The output frame of the twelve other instructions, whether or not they fault (00_scope.md R14). -/
theorem exec_out_of_ne_prn {i : Instr} (hi : ∀ r, i ≠ .prn r) (h : exec i s = .next t) : t.out = s.out := by
  cases i with
  | prn r => exact absurd rfl (hi r)
  | hlt => rw [execHlt_cases h, halt_out]
  | ldi r v => exact (execLdi_cases h).elim FaultTaken.out_eq fun ⟨_, _, _, _, e⟩ => by simp [e]
  | add a b => exact (execAdd_cases h).elim FaultTaken.out_eq fun ⟨_, _, _, _, _, _, e⟩ => by simp [e]
  | mul a b => exact (execMul_cases h).elim FaultTaken.out_eq fun ⟨_, _, _, _, _, _, e⟩ => by simp [e]
  | cmp a b => exact (execCmp_cases h).elim FaultTaken.out_eq fun ⟨_, _, _, _, _, _, e⟩ => by simp [e]
  | push r => exact (execPush_cases h).elim FaultTaken.out_eq fun ⟨_, _, _, _, _, _, e⟩ => by simp [e]
  | pop r => exact (execPop_cases h).elim FaultTaken.out_eq fun ⟨_, _, _, _, _, _, e⟩ => by simp [e]
  | call r => exact (execCall_cases h).elim FaultTaken.out_eq fun ⟨_, _, _, _, _, _, e⟩ => by simp [e]
  | ret => exact (execRet_cases h).elim FaultTaken.out_eq fun ⟨_, _, e⟩ => by simp [e]
  | jeq r =>
    obtain hf | ⟨_, _, _, rfl⟩ | ⟨_, _, _, rfl⟩ := execJeq_cases h
    · exact hf.out_eq
    · rfl
    · rfl
  | jne r =>
    obtain hf | ⟨_, _, _, rfl⟩ | ⟨_, _, _, rfl⟩ := execJne_cases h
    · exact hf.out_eq
    · rfl
    · rfl
  | jmp r => exact (execJmp_cases h).elim FaultTaken.out_eq fun ⟨_, _, e⟩ => by simp [e]

/-- Settles O42: the frame of the other instructions, and PRN's own effect. -/
theorem onlyPrnAppendsToOutput : Obligations.OnlyPrnAppendsToOutput := by
  intro i s t h
  refine ⟨fun hi => exec_out_of_ne_prn hi h, ?_⟩
  rintro r rfl - hf
  exact execPrn_out h hf

end Sys2Proof.Machine

namespace Sys2Proof.Machine

variable {s t : State} {rb : Byte}

/-! ### Reset -/

section Reset

variable (image : Memory) (before : State)

@[simp] theorem applyReset_readReg (j : Fin 8) : (applyReset image before).readReg j = State.reset.readReg j := rfl
@[simp] theorem applyReset_sp : (applyReset image before).sp = Config.spReset := rfl
@[simp] theorem applyReset_pc : (applyReset image before).pc = Config.pcReset := rfl
@[simp] theorem applyReset_fl : (applyReset image before).fl = ⟨false, false, false⟩ := rfl
@[simp] theorem applyReset_status : (applyReset image before).status = .running := rfl

end Reset

/-- Settles O31: each field is the reset value, whatever the image and the state before. -/
theorem resetGivesTheStatedValues : Obligations.ResetGivesTheStatedValues := fun image before =>
  have hsp := applyReset_sp image before
  ⟨hsp, hsp, applyReset_pc image before, applyReset_fl image before, applyReset_status image before⟩

/-! ### The flags -/

/-- A comparison leaves exactly one flag true (41_alu.md R123). -/
theorem compareFlags_exactly_one (x y : Byte) :
    compareFlags x y = ⟨true, false, false⟩ ∨ compareFlags x y = ⟨false, true, false⟩ ∨
      compareFlags x y = ⟨false, false, true⟩ := by
  unfold compareFlags
  split
  · exact .inr (.inr rfl)
  · split
    · exact .inl rfl
    · exact .inr (.inl rfl)

theorem flagsLegal_compareFlags (x y : Byte) : FlagsLegal (compareFlags x y) :=
  .inr (compareFlags_exactly_one x y)

theorem compareFlags_ne_none (x y : Byte) : compareFlags x y ≠ ⟨false, false, false⟩ := by
  obtain h | h | h := compareFlags_exactly_one x y <;> simp [h]

/-- An instruction keeps the flags legal: it leaves them as they are or it is CMP. -/
theorem exec_keeps_flagsLegal {i : Instr} (hfl : FlagsLegal s.fl) (h : exec i s = .next t) : FlagsLegal t.fl := by
  obtain heq | ⟨_, _, a, b, -, heq⟩ := exec_flags h
  · rwa [heq]
  · rw [heq]
    exact flagsLegal_compareFlags _ _

/-- A step keeps the flags legal under every opcode map: fault entry does not touch them. -/
theorem cycle_keeps_flagsLegal {opc : OpcodeMap} (hfl : FlagsLegal s.fl) (h : cycle opc s = .next t) :
    FlagsLegal t.fl := by
  obtain ⟨-, rfl | rfl | ⟨i, hexec⟩⟩ := cycle_cases h
  · exact hfl
  · exact hfl
  · exact exec_keeps_flagsLegal hfl hexec

theorem Reachable.flagsLegal (h : Reachable s) : FlagsLegal s.fl := by
  induction h with
  | launch image before => exact .inl (applyReset_fl _ before)
  | step _ hstep ih => exact cycle_keeps_flagsLegal ih hstep

/-- The inversion lemmas of the instructions, once fault entry is shut out. -/
theorem of_not_faulted {P : Prop} (hf : t.status ≠ .faulted) (h : FaultTaken s t ∨ P) : P :=
  h.resolve_left fun hfault => hf hfault.status_eq

/-- A CMP that completes leaves the flags of its comparison, whatever they were (decision D3). -/
theorem execCmp_fl {ab bb : Byte} (h : execCmp ab bb s = .next t) (hf : t.status ≠ .faulted) :
    ∃ x y, t.fl = compareFlags x y := by
  obtain ⟨a, b, _, -, -, -, rfl⟩ := of_not_faulted hf (execCmp_cases h)
  exact ⟨s.readReg a, s.readReg b, rfl⟩

/-- The flag frame of the twelve other instructions, whether or not they fault (10_state.md R29). -/
theorem exec_fl_of_ne_cmp {i : Instr} (hi : ∀ a b, i ≠ .cmp a b) (h : exec i s = .next t) : t.fl = s.fl := by
  obtain heq | ⟨ab, bb, _, _, hcmp, -⟩ := exec_flags h
  · exact heq
  · exact absurd hcmp (hi ab bb)

/-- Settles O38: the reset value, the invariant along a run, what CMP leaves, and the frame of the others. -/
theorem flagsAreNoneOrTheLastComparison : Obligations.FlagsAreNoneOrTheLastComparison := by
  refine ⟨fun _ before => applyReset_fl _ before, fun _ => Reachable.flagsLegal, ?_, fun _ _ _ => exec_fl_of_ne_cmp⟩
  intro a b s t _ h hf
  obtain ⟨x, y, hfl⟩ := execCmp_fl h hf
  rw [hfl]
  exact ⟨compareFlags_ne_none x y, flagsLegal_compareFlags x y⟩

/-! ### The program counter -/

/-- A conditional jump that does not fault has a legal operand whether or not it is taken (30_encoding.md R85), and its
new pc is the target or the sequential one. -/
theorem jumpIf_pc {taken : Bool} (h : complete s (jumpIf taken rb s) = .next t) (hf : t.status ≠ .faulted) :
    ∃ d : Fin 8, d.val = rb.toNat ∧
      if taken = true then t.pc = s.readReg d else t.pc.toNat = s.pc.toNat + 2 := by
  obtain hok | ⟨c, -, rfl⟩ := complete_cases h
  · rw [jumpIf, bind_eq_ok] at hok
    obtain ⟨d, hd, hok⟩ := hok
    refine ⟨d, (oneReg_eq_ok.mp hd).2, ?_⟩
    cases taken with
    | true =>
      obtain rfl := pure_eq_ok.mp hok
      rfl
    | false =>
      obtain ⟨n, hn, hok⟩ := bind_eq_ok.mp hok
      obtain rfl := pure_eq_ok.mp hok
      exact nextPc_eq_ok.mp hn
  · exact absurd (takeFault_status s c) hf

theorem execJeq_pc (h : execJeq rb s = .next t) (hf : t.status ≠ .faulted) :
    ∃ d : Fin 8, d.val = rb.toNat ∧
      if s.fl.e = true then t.pc = s.readReg d else t.pc.toNat = s.pc.toNat + 2 :=
  jumpIf_pc h hf

theorem execJne_pc (h : execJne rb s = .next t) (hf : t.status ≠ .faulted) :
    ∃ d : Fin 8, d.val = rb.toNat ∧
      if s.fl.e = false then t.pc = s.readReg d else t.pc.toNat = s.pc.toNat + 2 := by
  simpa only [Bool.not_eq_true'] using jumpIf_pc h hf

/-- Settles O43, row by row of the table of 10_state.md R26. -/
theorem programCounterFollowsTheTable : Obligations.ProgramCounterFollowsTheTable := by
  intro i s t _ h hf
  cases i with
  | ldi r v =>
    obtain ⟨_, _, -, hn, rfl⟩ := of_not_faulted hf (execLdi_cases h)
    exact hn
  | prn r =>
    obtain ⟨_, _, -, hn, rfl⟩ := of_not_faulted hf (execPrn_cases h)
    exact hn
  | add a b =>
    obtain ⟨_, _, _, -, -, hn, rfl⟩ := of_not_faulted hf (execAdd_cases h)
    exact hn
  | mul a b =>
    obtain ⟨_, _, _, -, -, hn, rfl⟩ := of_not_faulted hf (execMul_cases h)
    exact hn
  | cmp a b =>
    obtain ⟨_, _, _, -, -, hn, rfl⟩ := of_not_faulted hf (execCmp_cases h)
    exact hn
  | push r =>
    obtain ⟨_, _, _, -, -, hn, rfl⟩ := of_not_faulted hf (execPush_cases h)
    exact hn
  | pop r =>
    obtain ⟨_, _, _, -, -, hn, rfl⟩ := of_not_faulted hf (execPop_cases h)
    exact hn
  | call r =>
    obtain ⟨d, _, _, hd, -, -, rfl⟩ := of_not_faulted hf (execCall_cases h)
    exact ⟨d, hd, rfl⟩
  | ret =>
    obtain ⟨_, -, rfl⟩ := of_not_faulted hf (execRet_cases h)
    rfl
  | jeq r => exact execJeq_pc h hf
  | jne r => exact execJne_pc h hf
  | jmp r =>
    obtain ⟨d, hd, rfl⟩ := of_not_faulted hf (execJmp_cases h)
    exact ⟨d, hd, rfl⟩
  | hlt => rw [execHlt_cases h, halt_pc]

end Sys2Proof.Machine

namespace Sys2Proof.Machine

/-! ### Loading an image -/

/-- The loader writes every address, so no address keeps the unlisted value. -/
@[simp] theorem read_imageMemory (image : Byte → Byte) (a : Byte) : (imageMemory image).read a = image a := by
  rw [imageMemory, read_foldr_write, if_pos (mem_addresses a)]

/-- The core neither clears nor initialises memory (20_memory.md R62). -/
@[simp] theorem applyReset_mem (image : Memory) (before : State) : (applyReset image before).mem = image := rfl

/-- Settles O33: reset keeps the loaded memory, and the loader has written every address. -/
theorem memoryAfterLaunchIsTheImage : Obligations.MemoryAfterLaunchIsTheImage := by
  intro image before a
  rw [applyReset_mem, read_imageMemory]

end Sys2Proof.Machine

namespace Sys2Proof.Machine

variable {s : State}

/-! ### Load and print -/

/-- What `takeFault` writes and keeps is what an observer of fault entry sees (60_exceptions.md R188). -/
theorem faultEntered_takeFault (c : FaultCause) (s : State) : FaultEntered c s (takeFault c s) :=
  ⟨rfl, rfl, rfl, rfl, rfl, fun _ => rfl, rfl, fun _ => rfl, rfl⟩

/-- A rule that raises a fault ends in fault entry from the state before it (60_exceptions.md R190). -/
theorem complete_faultEntered {rule : Except FaultCause State} {c : FaultCause} (h : rule = .error c) :
    ∃ t, complete s rule = .next t ∧ FaultEntered c s t :=
  ⟨takeFault c s, by rw [h, complete_error], faultEntered_takeFault c s⟩

/-- The sequential next pc exists unless it passes 255 (00_scope.md R15). -/
theorem exists_nextPc {w : Nat} (h : s.pc.toNat + w ≤ 255) : ∃ n, nextPc s w = .ok n :=
  ⟨BitVec.ofNat 8 (s.pc.toNat + w), nextPc_eq_ok.mpr (by rw [BitVec.toNat_ofNat]; omega)⟩

/-- Every outcome of a rule with one register operand and a sequential next pc, in the order of its checks
(30_encoding.md R85): the operand bytes end after pc = `p`, the instruction after pc = `q`. -/
theorem complete_oneRegister_outcomes {operand : Except FaultCause (Fin 8)} {rb : Byte} {p q w : Nat}
    {effect : Fin 8 → Byte → State} {Q : Fin 8 → State → Prop}
    (hok : ∀ {r}, operand = .ok r ↔ s.pc.toNat ≤ p ∧ r.val = rb.toNat)
    (herror : ∀ {c}, operand = .error c ↔
      (c = .outOfBounds ∧ p < s.pc.toNat) ∨ (c = .invalidRegister ∧ s.pc.toNat ≤ p ∧ 8 ≤ rb.toNat))
    (hq : q + w = 255)
    (heffect : ∀ r n, n.toNat = s.pc.toNat + w → Q r (effect r n)) :
    ∃ t, complete s (operand >>= fun r => nextPc s w >>= fun n => pure (effect r n)) = .next t ∧
      if p < s.pc.toNat then FaultEntered .outOfBounds s t
      else if 7 < rb.toNat then FaultEntered .invalidRegister s t
      else if q < s.pc.toNat then FaultEntered .outOfBounds s t
      else ∀ d : Fin 8, d.val = rb.toNat → Q d t := by
  split_ifs with hbytes hreg hnext
  · exact complete_faultEntered (bind_eq_error.mpr (.inl (herror.mpr (.inl ⟨rfl, hbytes⟩))))
  · exact complete_faultEntered (bind_eq_error.mpr (.inl (herror.mpr (.inr ⟨rfl, by omega, hreg⟩))))
  all_goals
    obtain ⟨r, hr⟩ : ∃ r : Fin 8, r.val = rb.toNat := ⟨⟨rb.toNat, by omega⟩, rfl⟩
    rw [hok.mpr ⟨by omega, hr⟩, ok_bind]
  · exact complete_faultEntered (bind_eq_error.mpr (.inl (nextPc_eq_error.mpr ⟨rfl, by omega⟩)))
  · obtain ⟨n, hn⟩ := exists_nextPc (s := s) (w := w) (by omega)
    refine ⟨effect r n, by rw [hn]; rfl, fun d hd => ?_⟩
    rw [Fin.ext (hd.trans hr.symm)]
    exact heffect r n (nextPc_eq_ok.mp hn)

/-- Settles O1: past its checks LDI writes its register and pc alone. -/
theorem ldiLoadsImmediate : Obligations.LdiLoadsImmediate := by
  intro rb v s
  refine ⟨fun _ => rfl, ?_⟩
  change ∃ t, execLdi rb v s = .next t ∧ _
  refine complete_oneRegister_outcomes regAndImm_eq_ok regAndImm_eq_error rfl fun r n hn => ?_
  exact ⟨readReg_writeReg_same s r v, fun j hj => readReg_writeReg_of_ne s hj v, hn,
    rfl, fun _ => rfl, rfl, rfl, rfl, rfl, rfl⟩

/-- Settles O2: past its checks PRN appends one byte and moves pc. -/
theorem prnEmitsRegister : Obligations.PrnEmitsRegister := by
  intro rb s
  refine ⟨fun _ => rfl, ?_⟩
  change ∃ t, execPrn rb s = .next t ∧ _
  refine complete_oneRegister_outcomes oneReg_eq_ok oneReg_eq_error rfl fun r n hn => ?_
  exact ⟨rfl, fun _ => rfl, hn, rfl, fun _ => rfl, rfl, rfl, rfl, rfl⟩

end Sys2Proof.Machine

namespace Sys2Proof.Machine

variable {s : State} {ab bb : Byte}

/-! ### Arithmetic -/

/-- Every outcome of a rule with two register operands, in the order of its checks (30_encoding.md R85). -/
theorem complete_twoRegisters_outcomes {effect : Fin 8 × Fin 8 → Byte → State} {Q : Fin 8 → Fin 8 → State → Prop}
    (heffect : ∀ a b n, n.toNat = s.pc.toNat + 3 → Q a b (effect (a, b) n)) :
    ∃ t, complete s (twoRegs s ab bb >>= fun r => nextPc s 3 >>= fun n => pure (effect r n)) = .next t ∧
      if 253 < s.pc.toNat then FaultEntered .outOfBounds s t
      else if 7 < ab.toNat ∨ 7 < bb.toNat then FaultEntered .invalidRegister s t
      else if 252 < s.pc.toNat then FaultEntered .outOfBounds s t
      else ∀ d e : Fin 8, d.val = ab.toNat → e.val = bb.toNat → Q d e t := by
  split_ifs with hbytes hregs hnext
  · exact complete_faultEntered (bind_eq_error.mpr (.inl (twoRegs_eq_error.mpr (.inl ⟨rfl, hbytes⟩))))
  · exact complete_faultEntered (bind_eq_error.mpr (.inl (twoRegs_eq_error.mpr (.inr ⟨rfl, by omega, hregs⟩))))
  all_goals
    obtain ⟨a, ha⟩ : ∃ a : Fin 8, a.val = ab.toNat := ⟨⟨ab.toNat, by omega⟩, rfl⟩
    obtain ⟨b, hb⟩ : ∃ b : Fin 8, b.val = bb.toNat := ⟨⟨bb.toNat, by omega⟩, rfl⟩
    have hoperands : twoRegs s ab bb = .ok (a, b) := twoRegs_eq_ok.mpr ⟨by omega, ha, hb⟩
    rw [hoperands, ok_bind]
  · exact complete_faultEntered (bind_eq_error.mpr (.inl (nextPc_eq_error.mpr ⟨rfl, by omega⟩)))
  · obtain ⟨n, hn⟩ := exists_nextPc (s := s) (w := 3) (by omega)
    refine ⟨effect (a, b) n, by rw [hn]; rfl, fun d e hd he => ?_⟩
    rw [Fin.ext (hd.trans ha.symm), Fin.ext (he.trans hb.symm)]
    exact heffect a b n (nextPc_eq_ok.mp hn)

/-- Where the hardware computes the operation, its rule is two operands, the next pc and one register write. -/
theorem arithmetic_eq_bind {op : AluOp} {value : Byte → Byte → Byte} (hvalue : ∀ x y, aluArith op x y = .ok (value x y)) :
    arithmetic op ab bb s = twoRegs s ab bb >>= fun r => nextPc s 3 >>= fun n =>
      pure ((s.writeReg r.1 (value (s.readReg r.1) (s.readReg r.2))).withPc n) := by
  simp only [arithmetic, hvalue, ok_bind]

/-- Every outcome of an arithmetic instruction whose exact result is `number`: the low 8 bits are kept
(41_alu.md, decision D1). -/
theorem complete_arithmetic_outcomes {op : AluOp} {number : Nat → Nat → Nat}
    (hnumber : ∀ x y, aluArith op x y = .ok (BitVec.ofNat 8 (number x.toNat y.toNat))) :
    ∃ t, complete s (arithmetic op ab bb s) = .next t ∧
      if 253 < s.pc.toNat then FaultEntered .outOfBounds s t
      else if 7 < ab.toNat ∨ 7 < bb.toNat then FaultEntered .invalidRegister s t
      else if 252 < s.pc.toNat then FaultEntered .outOfBounds s t
      else ∀ d e : Fin 8, d.val = ab.toNat → e.val = bb.toNat →
        (t.readReg d).toNat = number (s.readReg d).toNat (s.readReg e).toNat % 256 ∧ SameRegsBut d s t ∧
        t.pc.toNat = s.pc.toNat + 3 ∧ t.fl = s.fl ∧ SameMem s t ∧ t.out = s.out ∧ SameControl s t := by
  rw [arithmetic_eq_bind hnumber]
  refine complete_twoRegisters_outcomes fun a b n hn => ?_
  have hresult : (((s.writeReg a (BitVec.ofNat 8 (number (s.readReg a).toNat (s.readReg b).toNat))).withPc n).readReg
      a).toNat = number (s.readReg a).toNat (s.readReg b).toNat % 256 := by
    rw [readReg_withPc, readReg_writeReg_same, BitVec.toNat_ofNat]
  exact ⟨hresult, fun j hj => readReg_writeReg_of_ne s hj _, hn, rfl, fun _ => rfl, rfl, rfl, rfl, rfl, rfl⟩

/-- Settles O3: ADD is the arithmetic instruction whose exact result is the sum. -/
theorem addWritesSumModulo256 : Obligations.AddWritesSumModulo256 := by
  intro ab bb s
  refine ⟨fun _ => rfl, ?_⟩
  change ∃ t, complete s (arithmetic .add ab bb s) = .next t ∧ _
  exact complete_arithmetic_outcomes (number := (· + ·)) fun _ _ => rfl

/-- Settles O4: MUL is the arithmetic instruction whose exact result is the product. -/
theorem mulWritesProductModulo256 : Obligations.MulWritesProductModulo256 := by
  intro ab bb s
  refine ⟨fun _ => rfl, ?_⟩
  change ∃ t, complete s (arithmetic .mul ab bb s) = .next t ∧ _
  exact complete_arithmetic_outcomes (number := (· * ·)) fun _ _ => rfl

end Sys2Proof.Machine

namespace Sys2Proof.Machine

variable {s : State} {rb : Byte}

/-! ### The stack -/

/-- Where address arithmetic raises no fault it answers. -/
theorem exists_ok_of_error_iff {address : Except FaultCause Byte} {P : Prop}
    (herror : ∀ c, address = .error c ↔ c = .outOfBounds ∧ P) (hP : ¬P) : ∃ a, address = .ok a := by
  cases h : address with
  | ok a => exact ⟨a, rfl⟩
  | error c => exact absurd ((herror c).mp h).2 hP

/-- Two addresses formed in sequence fault alike, so it does not matter which of them does not exist. -/
theorem bind_addresses_error {first second : Except FaultCause Byte} {rule : Byte → Byte → Except FaultCause State}
    {P Q : Prop} (hfirst : ∀ c, first = .error c ↔ c = .outOfBounds ∧ P)
    (hsecond : ∀ c, second = .error c ↔ c = .outOfBounds ∧ Q) (h : P ∨ Q) :
    (first >>= fun a => second >>= fun b => rule a b) = .error .outOfBounds := by
  by_cases hP : P
  · rw [(hfirst _).mpr ⟨rfl, hP⟩, error_bind]
  · obtain ⟨a, ha⟩ := exists_ok_of_error_iff hfirst hP
    rw [ha, ok_bind, (hsecond _).mpr ⟨rfl, h.resolve_left hP⟩, error_bind]

/-- Every outcome of a rule with one register operand that then forms two addresses, in the order of its checks
(30_encoding.md R85): `P` and `Q` say that the first and the second address do not exist. -/
theorem complete_twoAddresses_outcomes {first second : Fin 8 → Except FaultCause Byte}
    {effect : Fin 8 → Byte → Byte → State} {P Q C : Prop} [Decidable C] {R : Fin 8 → State → Prop}
    (hfirst : ∀ r, r.val = rb.toNat → ∀ c, first r = .error c ↔ c = .outOfBounds ∧ P)
    (hsecond : ∀ r, r.val = rb.toNat → ∀ c, second r = .error c ↔ c = .outOfBounds ∧ Q)
    (hC : C ↔ P ∨ Q)
    (heffect : ∀ r a b, r.val = rb.toNat → first r = .ok a → second r = .ok b → R r (effect r a b)) :
    ∃ t, complete s (oneReg s rb >>= fun r => first r >>= fun a => second r >>= fun b => pure (effect r a b)) =
        .next t ∧
      if 254 < s.pc.toNat then FaultEntered .outOfBounds s t
      else if 7 < rb.toNat then FaultEntered .invalidRegister s t
      else if C then FaultEntered .outOfBounds s t
      else ∀ d : Fin 8, d.val = rb.toNat → R d t := by
  split_ifs with hbyte hreg haddress
  · exact complete_faultEntered (bind_eq_error.mpr (.inl (oneReg_eq_error.mpr (.inl ⟨rfl, hbyte⟩))))
  · exact complete_faultEntered (bind_eq_error.mpr (.inl (oneReg_eq_error.mpr (.inr ⟨rfl, by omega, hreg⟩))))
  all_goals
    obtain ⟨r, hr⟩ : ∃ r : Fin 8, r.val = rb.toNat := ⟨⟨rb.toNat, by omega⟩, rfl⟩
    rw [oneReg_eq_ok.mpr ⟨by omega, hr⟩, ok_bind]
  · exact complete_faultEntered (bind_addresses_error (hfirst r hr) (hsecond r hr) (hC.mp haddress))
  · obtain ⟨hP, hQ⟩ := not_or.mp (mt hC.mpr haddress)
    obtain ⟨a, ha⟩ := exists_ok_of_error_iff (hfirst r hr) hP
    obtain ⟨b, hb⟩ := exists_ok_of_error_iff (hsecond r hr) hQ
    refine ⟨effect r a b, by rw [ha, hb]; rfl, fun d hd => ?_⟩
    rw [Fin.ext (hd.trans hr.symm)]
    exact heffect r a b hr ha hb

/-- A two-byte instruction has no sequential next pc from address 254 on (00_scope.md R15). -/
theorem nextPc_two_eq_error {c : FaultCause} : nextPc s 2 = .error c ↔ c = .outOfBounds ∧ 253 < s.pc.toNat := by
  rw [nextPc_eq_error]
  exact and_congr_right fun _ => by omega

/-- `popBase` with the register given by its operand byte. -/
theorem popBase_eq_ite {r : Fin 8} (hr : r.val = rb.toNat) (v : Byte) :
    popBase s r v = if rb.toNat = 7 then v else s.sp := by
  split_ifs with h7
  · obtain rfl : r = 7 := Fin.ext (hr.trans h7)
    exact popBase_sp s v
  · exact popBase_of_ne (fun h => h7 (by rw [← hr, h]; rfl)) s v

/-- Settles O6: the two addresses are the cell below SP and the next pc; register 7 is read after its decrement. -/
theorem pushStoresBelowStackPointer : Obligations.PushStoresBelowStackPointer := by
  intro rb s
  refine ⟨fun _ => rfl, ?_⟩
  change ∃ t, execPush rb s = .next t ∧ _
  refine complete_twoAddresses_outcomes (fun _ _ _ => pushAddress_eq_error) (fun _ _ _ => nextPc_two_eq_error)
    Iff.rfl fun r a n _ ha hn => ?_
  refine ⟨⟨a, ha⟩, fun a' ha' => ?_, fun j hj => readReg_writeReg_of_ne s hj a, nextPc_eq_ok.mp hn,
    rfl, rfl, rfl, rfl, rfl, rfl⟩
  obtain rfl : a = a' := Except.ok.inj (ha.symm.trans ha')
  refine ⟨pushAddress_eq_ok.mp ha, readReg_writeReg_same s 7 a, ?_, fun b hb => read_write_of_ne s.mem hb _⟩
  rw [withPc_mem, store_mem, read_write_same, readReg_writeReg]

/-- Settles O7: the two addresses are the incremented `popBase` and the next pc; for `POP R7` the increment overwrites
the popped byte. -/
theorem popLoadsFromStackPointer : Obligations.PopLoadsFromStackPointer := by
  intro rb s
  refine ⟨fun _ => rfl, ?_⟩
  change ∃ t, execPop rb s = .next t ∧ _
  refine complete_twoAddresses_outcomes (second := fun _ => nextPc s 2)
    (fun r hr _ => by rw [incrementedSp_eq_error, popBase_eq_ite hr]) (fun _ _ _ => nextPc_two_eq_error)
    or_comm fun r sp' n _ hsp hn => ?_
  have hinc : sp'.toNat = (popBase s r (s.mem.read s.sp)).toNat + 1 := incrementedSp_eq_ok.mp hsp
  have hnew : (((s.writeReg r (s.mem.read s.sp)).writeReg 7 sp').withPc n).sp = sp' := readReg_writeReg_same _ 7 sp'
  refine ⟨fun h7 => ⟨?_, ?_⟩, fun h7 => ?_, fun j hjr hj7 => ?_, nextPc_eq_ok.mp hn,
    rfl, fun _ => rfl, rfl, rfl, rfl, rfl, rfl⟩
  · rw [readReg_withPc, readReg_writeReg_of_ne _ h7, readReg_writeReg_same]
  · rw [hnew, hinc, popBase_of_ne h7]
  · rw [hnew, hinc, h7, popBase_sp]
  · rw [readReg_withPc, readReg_writeReg_of_ne _ hj7, readReg_writeReg_of_ne _ hjr]

end Sys2Proof.Machine

namespace Sys2Proof.Machine

variable {s : State} {rb : Byte}

/-! ### Control transfer -/

/-- Every outcome of a rule with one register operand, whatever follows: the operand byte's address is checked, then its
value, then `rest` runs with the register it names (30_encoding.md R85). -/
theorem complete_oneReg_outcomes {rest : Fin 8 → Except FaultCause State} {R : State → Prop}
    (hrest : ∀ r, r.val = rb.toNat → ∃ t, complete s (rest r) = .next t ∧ R t) :
    ∃ t, complete s (oneReg s rb >>= rest) = .next t ∧
      if 254 < s.pc.toNat then FaultEntered .outOfBounds s t
      else if 7 < rb.toNat then FaultEntered .invalidRegister s t
      else R t := by
  split_ifs with hbyte hreg
  · exact complete_faultEntered (bind_eq_error.mpr (.inl (oneReg_eq_error.mpr (.inl ⟨rfl, hbyte⟩))))
  · exact complete_faultEntered (bind_eq_error.mpr (.inl (oneReg_eq_error.mpr (.inr ⟨rfl, by omega, hreg⟩))))
  · obtain ⟨r, hr⟩ : ∃ r : Fin 8, r.val = rb.toNat := ⟨⟨rb.toNat, by omega⟩, rfl⟩
    rw [oneReg_eq_ok.mpr ⟨by omega, hr⟩, ok_bind]
    exact hrest r hr

/-- The frame of a jump: setting pc changes nothing else. -/
theorem withPc_frame (s : State) (target : Byte) :
    SameRegs s (s.withPc target) ∧ (s.withPc target).fl = s.fl ∧ SameMem s (s.withPc target) ∧
      (s.withPc target).out = s.out ∧ SameControl s (s.withPc target) :=
  ⟨fun _ => rfl, rfl, fun _ => rfl, rfl, rfl, rfl, rfl, rfl⟩

/-- Every outcome of a conditional jump, said once for JEQ and JNE: only the jump not taken needs a sequential next pc
(43_control_transfer.md R147, R148). -/
theorem complete_jumpIf_outcomes (taken : Bool) :
    ∃ t, complete s (jumpIf taken rb s) = .next t ∧
      if 254 < s.pc.toNat then FaultEntered .outOfBounds s t
      else if 7 < rb.toNat then FaultEntered .invalidRegister s t
      else if taken = false ∧ 253 < s.pc.toNat then FaultEntered .outOfBounds s t
      else ∀ d : Fin 8, d.val = rb.toNat →
        (taken = true → t.pc = s.readReg d) ∧ (taken = false → t.pc.toNat = s.pc.toNat + 2) ∧
        SameRegs s t ∧ t.fl = s.fl ∧ SameMem s t ∧ t.out = s.out ∧ SameControl s t := by
  refine complete_oneReg_outcomes fun r hr => ?_
  cases taken with
  | true =>
    refine ⟨s.withPc (s.readReg r), rfl, ?_⟩
    rw [if_neg (by simp)]
    intro d hd
    obtain rfl : d = r := Fin.ext (hd.trans hr.symm)
    exact ⟨fun _ => rfl, nofun, withPc_frame s _⟩
  | false =>
    change ∃ t, complete s (nextPc s 2 >>= fun n => pure (s.withPc n)) = .next t ∧ _
    split_ifs with hfall
    · exact complete_faultEntered (bind_eq_error.mpr (.inl (nextPc_two_eq_error.mpr ⟨rfl, hfall.2⟩)))
    · obtain ⟨n, hn⟩ := exists_ok_of_error_iff (fun _ => nextPc_two_eq_error) fun h => hfall ⟨rfl, h⟩
      refine ⟨s.withPc n, by rw [hn]; rfl, fun d _ => ?_⟩
      exact ⟨nofun, fun _ => nextPc_eq_ok.mp hn, withPc_frame s n⟩

/-- Settles O8: the two addresses are the return address and the cell below SP; the target register is read after the
stack pointer is written. -/
theorem callPushesReturnAddress : Obligations.CallPushesReturnAddress := by
  intro rb s
  refine ⟨fun _ => rfl, ?_⟩
  change ∃ t, execCall rb s = .next t ∧ _
  refine complete_twoAddresses_outcomes (fun _ _ _ => returnAddress_eq_error) (fun _ _ _ => pushAddress_eq_error)
    (by omega) fun r ra a _ hra ha => ?_
  refine ⟨⟨a, ha⟩, fun a' ha' => ?_, fun j hj => readReg_writeReg_of_ne s hj a, rfl, rfl, rfl, rfl, rfl, rfl⟩
  obtain rfl : a = a' := Except.ok.inj (ha.symm.trans ha')
  refine ⟨pushAddress_eq_ok.mp ha, readReg_writeReg_same s 7 a, ?_, fun b hb => read_write_of_ne s.mem hb ra, ?_⟩
  · rw [withPc_mem, store_mem, read_write_same, returnAddress_eq_ok.mp hra]
  · rw [withPc_pc, readReg_store, readReg_writeReg]

/-- Settles O9: RET's one check is that the incremented stack pointer exists. -/
theorem retPopsProgramCounter : Obligations.RetPopsProgramCounter := by
  intro s
  refine ⟨fun _ => rfl, ?_⟩
  change ∃ t, execRet s = .next t ∧ _
  split_ifs with hsp
  · exact complete_faultEntered (bind_eq_error.mpr (.inl (incrementedSp_eq_error.mpr ⟨rfl, hsp⟩)))
  · obtain ⟨sp', hsp'⟩ := exists_ok_of_error_iff (fun _ => incrementedSp_eq_error) hsp
    refine ⟨(s.withPc (s.mem.read s.sp)).writeReg 7 sp', by rw [execRet, hsp']; rfl, rfl, ?_,
      fun j hj => readReg_writeReg_of_ne _ hj sp', rfl, fun _ => rfl, rfl, rfl, rfl, rfl, rfl⟩
    rw [sp_eq_readReg, readReg_writeReg_same, incrementedSp_eq_ok.mp hsp']

/-- Settles O10: JEQ is the conditional jump taken when `FL.E` is set. -/
theorem jeqJumpsWhenEqualSet : Obligations.JeqJumpsWhenEqualSet := by
  intro rb s
  refine ⟨fun _ => rfl, ?_⟩
  change ∃ t, complete s (jumpIf s.fl.e rb s) = .next t ∧ _
  exact complete_jumpIf_outcomes s.fl.e

/-- Settles O11: JNE is the conditional jump taken when `FL.E` is clear. -/
theorem jneJumpsWhenEqualClear : Obligations.JneJumpsWhenEqualClear := by
  intro rb s
  refine ⟨fun _ => rfl, ?_⟩
  change ∃ t, complete s (jumpIf (!s.fl.e) rb s) = .next t ∧ _
  simpa only [Bool.not_eq_true', Bool.not_eq_false'] using complete_jumpIf_outcomes (!s.fl.e)

/-- Settles O12: past the checks of its operand JMP sets pc alone. -/
theorem jmpLoadsProgramCounter : Obligations.JmpLoadsProgramCounter := by
  intro rb s
  refine ⟨fun _ => rfl, ?_⟩
  change ∃ t, execJmp rb s = .next t ∧ _
  refine complete_oneReg_outcomes fun r hr => ⟨s.withPc (s.readReg r), rfl, fun d hd => ?_⟩
  obtain rfl : d = r := Fin.ext (hd.trans hr.symm)
  exact ⟨rfl, withPc_frame s _⟩

end Sys2Proof.Machine

namespace Sys2Proof

variable {opc : OpcodeMap} {i : Instr} {m : Mnemonic} {bs rest : List Byte}

/-! ### Encoding and decoding -/

/-- An encoding is the opcode byte and then bytes that the operand decoder reads back (30_encoding.md R82). -/
theorem exists_operandBytes (opc : OpcodeMap) (i : Instr) (rest : List Byte) :
    ∃ bs, encodeWith opc i ++ rest = opc i.mnemonic :: bs ∧ decodeOperands i.mnemonic bs = .ok (i, rest) := by
  cases i <;> exact ⟨_, rfl, rfl⟩

/-- Under distinct opcodes an encoding decodes to its instruction, whatever follows it. -/
theorem decodeWith_encodeWith_append (h : opc.Distinct) (i : Instr) (rest : List Byte) :
    decodeWith opc (encodeWith opc i ++ rest) = .ok (i, rest) := by
  obtain ⟨bs, hbytes, hoperands⟩ := exists_operandBytes opc i rest
  rw [hbytes, decodeWith_cons, lookupOpcode_opc h]
  exact hoperands

/-- What the operand decoder reads, encoded again, is the opcode and the bytes it read. -/
theorem encodeWith_append_of_decodeOperands (opc : OpcodeMap) (h : decodeOperands m bs = .ok (i, rest)) :
    encodeWith opc i ++ rest = opc m :: bs := by
  cases m with
  | ldi | add | mul | cmp =>
    obtain ⟨_, _, rfl, rfl⟩ := takeTwo_ok h
    rfl
  | prn | push | pop | call | jeq | jne | jmp =>
    obtain ⟨_, rfl, rfl⟩ := takeOne_ok h
    rfl
  | ret | hlt =>
    cases h
    rfl

/-- What the decoder reads, encoded again, is the bytes it read. -/
theorem encodeWith_append_of_decodeWith (h : decodeWith opc bs = .ok (i, rest)) : encodeWith opc i ++ rest = bs := by
  cases bs with
  | nil => cases h
  | cons b bs =>
    rw [decodeWith_cons] at h
    cases hlookup : lookupOpcode opc b with
    | none => simp [hlookup] at h
    | some m =>
      simp only [hlookup] at h
      rw [encodeWith_append_of_decodeOperands opc h, lookupOpcode_some hlookup]

/-- The decoder finds a byte unknown exactly when it is no opcode, whatever follows (30_encoding.md R93). -/
theorem decodeWith_eq_unknownOpcode {b c : Byte} :
    decodeWith opc (b :: bs) = .error (.unknownOpcode c) ↔ b = c ∧ ∀ m, opc m ≠ b := by
  rw [decodeWith_cons, ← lookupOpcode_none]
  cases hlookup : lookupOpcode opc b with
  | none => simp
  | some m =>
    obtain ⟨hd, -⟩ | ⟨_, _, hd, -⟩ := decodeOperands_cases m bs <;> simp [hd]

/-- Under distinct opcodes the decoder runs out of bytes exactly when they are fewer than the opcode's format asks for
(30_encoding.md R85). -/
theorem decodeWith_eq_truncated (h : opc.Distinct) {b : Byte} :
    decodeWith opc (b :: bs) = .error .truncated ↔ ∃ m, opc m = b ∧ bs.length + 1 < m.format.length := by
  constructor
  · intro hd
    rw [decodeWith_cons] at hd
    cases hlookup : lookupOpcode opc b with
    | none => simp [hlookup] at hd
    | some m =>
      simp only [hlookup] at hd
      obtain ⟨-, hlen⟩ | ⟨_, _, hok, -⟩ := decodeOperands_cases m bs
      · exact ⟨m, lookupOpcode_some hlookup, hlen⟩
      · rw [hok] at hd
        cases hd
  · rintro ⟨m, rfl, hlen⟩
    rw [decodeWith_cons, lookupOpcode_opc h]
    obtain ⟨hd, -⟩ | ⟨_, _, -, -, hge⟩ := decodeOperands_cases m bs
    · exact hd
    · omega

/-- No instruction is longer than the three bytes a fetch offers (30_encoding.md R80). -/
theorem length_encodeWith_le (opc : OpcodeMap) (i : Instr) : (encodeWith opc i).length ≤ 3 := by
  cases i <;> simp [encodeWith]

/-- No format asks for more than three bytes (30_encoding.md R81). -/
theorem Mnemonic.length_format_le (m : Mnemonic) : m.format.length ≤ 3 := by
  cases m <;> decide

end Sys2Proof

namespace Sys2Proof.Machine

variable {opc : OpcodeMap} {i : Instr} {s t : State}

/-! ### Halting -/

/-- Settles O13: HLT is the update of the status alone. -/
theorem hltHaltsAndChangesNothingElse : Obligations.HltHaltsAndChangesNothingElse := fun s =>
  ⟨fun _ => rfl, s.halt, rfl, halt_status s, halt_pc s, readReg_halt s, halt_fl s, fun _ => rfl, halt_out s,
    halt_faultCause s, halt_faultPc s, halt_faultOpcode s⟩

/-- From a Running core HLT alone ends Halted (44_halt_and_cycle.md R170). -/
theorem exec_halted_iff (hrun : s.status = .running) (h : exec i s = .next t) : t.status = .halted ↔ i = .hlt := by
  by_cases hi : i = .hlt
  · subst hi
    rw [execHlt_cases h]
    exact iff_of_true (halt_status s) rfl
  · refine iff_of_false ?_ hi
    obtain hfault | ⟨hhlt, -⟩ | ⟨-, hstatus, -⟩ := exec_control h
    · simp [hfault.status_eq]
    · exact absurd hhlt hi
    · simp [hstatus, hrun]

/-! ### The fetch -/

/-- The fetch offers every byte at pc, pc + 1 and pc + 2 that exists. -/
theorem getElem?_fetchBytes {k : Nat} (hk : k < 3) : (fetchBytes s)[k]? = fetchByte s k := by
  cases hbyte : fetchByte s k with
  | none =>
    rw [fetchByte_eq_none] at hbyte
    rw [List.getElem?_eq_none_iff, length_fetchBytes]
    omega
  | some b =>
    have hin : ¬255 < s.pc.toNat + k := by simp [← fetchByte_eq_none, hbyte]
    have hlt : k < (fetchBytes s).length := by rw [length_fetchBytes]; omega
    have hfetched := List.getElem?_eq_getElem hlt
    rw [hfetched, ← fetchByte_of_getElem hfetched, hbyte]

/-- The bytes of an instruction stand at pc exactly when the fetch offers them first. -/
theorem instrAt_iff_prefix : InstrAt opc i s ↔ encodeWith opc i <+: fetchBytes s := by
  have hfetch : ∀ k, k < (encodeWith opc i).length → (fetchBytes s)[k]? = fetchByte s k := fun k hk =>
    getElem?_fetchBytes (hk.trans_le (length_encodeWith_le opc i))
  rw [List.prefix_iff_getElem?]
  constructor
  · intro h k hk
    rw [hfetch k hk]
    exact fetchByte_eq_some.mpr (h k _ (List.getElem?_eq_getElem hk))
  · intro h k b hb
    obtain ⟨hk, rfl⟩ := List.getElem?_eq_some_iff.mp hb
    exact fetchByte_eq_some.mp (hfetch k hk ▸ h k hk)

/-- The bytes of an instruction stand at pc exactly when the fetched bytes decode to it. -/
theorem instrAt_iff_decodeWith (hopc : opc.Distinct) :
    InstrAt opc i s ↔ ∃ rest, decodeWith opc (fetchBytes s) = .ok (i, rest) := by
  rw [instrAt_iff_prefix]
  constructor
  · rintro ⟨rest, hrest⟩
    exact ⟨rest, hrest ▸ decodeWith_encodeWith_append hopc i rest⟩
  · rintro ⟨rest, hd⟩
    exact ⟨rest, encodeWith_append_of_decodeWith hd⟩

/-- The byte at pc is no opcode exactly when the decoder says so of the fetched bytes. -/
theorem fetch_unknownOpcode_iff :
    (∀ m, opc m ≠ s.mem.read s.pc) ↔ ∃ b, decodeWith opc (fetchBytes s) = .error (.unknownOpcode b) := by
  simp [fetchBytes_eq_cons, decodeWith_eq_unknownOpcode]

/-- The instruction at pc runs past address 255 exactly when the fetched bytes end before it does. -/
theorem fetch_truncated_iff (hopc : opc.Distinct) :
    (∃ m, opc m = s.mem.read s.pc ∧ 256 < s.pc.toNat + m.format.length) ↔
      decodeWith opc (fetchBytes s) = .error .truncated := by
  have hlen := length_fetchBytes s
  rw [fetchBytes_eq_cons, List.length_cons] at hlen
  rw [fetchBytes_eq_cons, decodeWith_eq_truncated hopc]
  refine exists_congr fun m => and_congr_right fun _ => ?_
  have hformat := m.length_format_le
  have hpc := s.pc.isLt
  omega

/-! ### The cycle -/

/-- Only a Running core has a step (44_halt_and_cycle.md R170). -/
theorem cycle_ne_next (hstatus : s.status ≠ .running) : cycle opc s ≠ .next t := fun h =>
  hstatus (cycle_cases h).1

/-- A byte at pc that is no opcode is fault entry (30_encoding.md R93). -/
theorem cycle_of_unknownOpcode (hrun : s.status = .running) (h : ∀ m, opc m ≠ s.mem.read s.pc) :
    cycle opc s = .next (takeFault .unknownOpcode s) := by
  obtain ⟨b, hd⟩ := fetch_unknownOpcode_iff.mp h
  rw [cycle_running hrun, hd]

/-- The instruction whose bytes stand at pc is executed by its own rule. -/
theorem cycle_of_instrAt (hopc : opc.Distinct) (hrun : s.status = .running) (h : InstrAt opc i s) :
    cycle opc s = exec i s := by
  obtain ⟨rest, hd⟩ := (instrAt_iff_decodeWith hopc).mp h
  rw [cycle_running hrun, hd]

/-- An instruction that runs past address 255 is fault entry (30_encoding.md R85). -/
theorem cycle_of_truncated (hopc : opc.Distinct) (hrun : s.status = .running)
    (h : ∃ m, opc m = s.mem.read s.pc ∧ 256 < s.pc.toNat + m.format.length) :
    cycle opc s = .next (takeFault .outOfBounds s) := by
  rw [cycle_running hrun, (fetch_truncated_iff hopc).mp h]

/-- What stands at pc is no opcode, a whole instruction, or an instruction that runs past address 255. -/
theorem fetch_exhaustive (hopc : opc.Distinct) (s : State) :
    (∀ m, opc m ≠ s.mem.read s.pc) ∨ (∃ i, InstrAt opc i s) ∨
      ∃ m, opc m = s.mem.read s.pc ∧ 256 < s.pc.toNat + m.format.length := by
  match hd : decodeWith opc (fetchBytes s) with
  | .error (.unknownOpcode b) => exact .inl (fetch_unknownOpcode_iff.mpr ⟨b, hd⟩)
  | .ok (i, rest) => exact .inr (.inl ⟨i, (instrAt_iff_decodeWith hopc).mpr ⟨rest, hd⟩⟩)
  | .error .truncated => exact .inr (.inr ((fetch_truncated_iff hopc).mpr hd))

/-- A step ends Halted exactly when the instruction at pc is HLT (44_halt_and_cycle.md R170). -/
theorem cycle_halted_iff (hopc : opc.Distinct) (h : cycle opc s = .next t) :
    t.status = .halted ↔ InstrAt opc .hlt s := by
  have hrun := (cycle_cases h).1
  rw [cycle_running hrun] at h
  rw [instrAt_iff_decodeWith hopc]
  match hd : decodeWith opc (fetchBytes s) with
  | .ok (i, rest) =>
    rw [hd] at h
    simp [exec_halted_iff hrun h]
  | .error (.unknownOpcode b) =>
    rw [hd] at h
    cases h
    simp
  | .error .truncated =>
    rw [hd] at h
    cases h
    simp

/-- Settles O21: each clause is what the cycle does in one of the three cases of `fetch_exhaustive`. -/
theorem stepFollowsTheCycle : Obligations.StepFollowsTheCycle := by
  intro opc s hopc
  refine ⟨fun hstatus t => cycle_ne_next hstatus, fun hrun => ⟨fun hunknown => ?_, fun i => cycle_of_instrAt hopc hrun,
    fun m hm hend => ?_, fetch_exhaustive hopc s, fun t h => ⟨cycle_halted_iff hopc h, ?_⟩⟩⟩
  · exact ⟨_, cycle_of_unknownOpcode hrun hunknown, faultEntered_takeFault _ s⟩
  · exact ⟨_, cycle_of_truncated hopc hrun ⟨m, hm, hend⟩, faultEntered_takeFault _ s⟩
  · cases t.status <;> simp

end Sys2Proof.Machine

namespace Sys2Proof

/-- An encoding has the length of its instruction's format (30_encoding.md R80). -/
theorem length_encodeWith (opc : OpcodeMap) (i : Instr) : (encodeWith opc i).length = i.length := by
  cases i <;> rfl

end Sys2Proof

namespace Sys2Proof.Machine

variable {opc : OpcodeMap} {i : Instr} {s t : State} {c : FaultCause}

/-! ### Fault entry -/

theorem FaultEntered.status_eq (h : FaultEntered c s t) : t.status = .faulted := by
  obtain ⟨hstatus, -⟩ := h
  exact hstatus

/-- The code an observer reads after fault entry is the cause's (60_exceptions.md R181). -/
theorem FaultEntered.faultCode_eq (h : FaultEntered c s t) : t.faultCode = c.code := by
  obtain ⟨-, hcause, -⟩ := h
  rw [State.faultCode, hcause]

/-- Fault entry latches one cause. -/
theorem FaultEntered.cause_unique {c' : FaultCause} (h : FaultEntered c s t) (h' : FaultEntered c' s t) : c = c' := by
  obtain ⟨-, hcause, -⟩ := h
  obtain ⟨-, hcause', -⟩ := h'
  exact Option.some.inj (hcause.symm.trans hcause')

/-- The fault an instruction takes is fault entry as an observer sees it. -/
theorem FaultTaken.exists_faultEntered (h : FaultTaken s t) : ∃ c, FaultEntered c s t := by
  obtain rfl | rfl := h
  · exact ⟨_, faultEntered_takeFault _ s⟩
  · exact ⟨_, faultEntered_takeFault _ s⟩

/-- From a Running core an instruction that ends Faulted has done fault entry: HLT ends Halted, and the others keep the
status when they complete. -/
theorem exec_faulted (hrun : s.status = .running) (h : exec i s = .next t) (hf : t.status = .faulted) :
    ∃ c, FaultEntered c s t := by
  obtain hfault | ⟨-, rfl⟩ | ⟨-, hstatus, -⟩ := exec_control h
  · exact hfault.exists_faultEntered
  · cases hf
  · rw [hstatus, hrun] at hf
    cases hf

/-- Settles O18: the fetch answers before any operand is asked for. -/
theorem unknownOpcodeFaultsAtFetch : Obligations.UnknownOpcodeFaultsAtFetch := fun _ s hrun hunknown =>
  ⟨_, cycle_of_unknownOpcode hrun hunknown, faultEntered_takeFault _ s, rfl⟩

/-- Settles O17: the two faults of the fetch, and the instructions' own. -/
theorem faultingStepDoesOnlyFaultEntry : Obligations.FaultingStepDoesOnlyFaultEntry := by
  intro opc s t h hf
  obtain ⟨hrun, rfl | rfl | ⟨i, hexec⟩⟩ := cycle_cases h
  · exact ⟨_, faultEntered_takeFault _ s⟩
  · exact ⟨_, faultEntered_takeFault _ s⟩
  · exact exec_faulted hrun hexec hf

end Sys2Proof.Machine

namespace Sys2Proof.Machine

variable {opc : OpcodeMap} {i : Instr} {s t : State} {c : FaultCause}

/-! ### The priority of the faults of one instruction (60_exceptions.md R186) -/

/-- Item (4) of R186: an address that the instruction forms in its execution (new stack pointer, return address,
sequential next pc) does not exist. Of the bytes of the instruction itself it says nothing. -/
def executionCheckFails (s : State) : Instr → Bool
  | .ldi _ _ => 252 < s.pc.toNat
  | .prn _ => 253 < s.pc.toNat
  | .add _ _ => 252 < s.pc.toNat
  | .mul _ _ => 252 < s.pc.toNat
  | .push _ => s.sp.toNat = 0 ∨ 253 < s.pc.toNat
  | .pop r => 253 < s.pc.toNat ∨ (if r.toNat = 7 then s.mem.read s.sp else s.sp).toNat = 255
  | .call _ => 253 < s.pc.toNat ∨ s.sp.toNat = 0
  | .ret => s.sp.toNat = 255
  | .cmp _ _ => 252 < s.pc.toNat
  | .jeq _ => s.fl.e = false ∧ 253 < s.pc.toNat
  | .jne _ => s.fl.e = true ∧ 253 < s.pc.toNat
  | .jmp _ => false
  | .hlt => false

/-- The fault an instruction reports by items (2), (3) and (4) of R186, the first that applies; `none` where it
completes. -/
def firstFault (i : Instr) (s : State) : Option FaultCause :=
  if 256 < s.pc.toNat + i.length then some .outOfBounds
  else if ∃ b ∈ registerOperands i, 7 < b.toNat then some .invalidRegister
  else if executionCheckFails s i then some .outOfBounds
  else none

/-- From `s` to `t` the core took the fault named, or took none. -/
def EndsWith (s t : State) : Option FaultCause → Prop
  | some c => FaultEntered c s t
  | none => t.status ≠ .faulted

/-- An instruction whose outcome is known check by check ends with its first fault: `p` is the last pc at which all its
bytes are inside memory, `B` and `C` are items (3) and (4) of R186, and `R` is what it does when it completes. -/
theorem endsWith_of_outcomes {p : Nat} {B C : Prop} [Decidable B] [Decidable C] {R : State → Prop}
    (hrun : s.status = .running) (hp : p + i.length = 256)
    (hB : (∃ b ∈ registerOperands i, 7 < b.toNat) ↔ B) (hC : executionCheckFails s i = true ↔ C)
    (hR : ¬B → ∀ t, R t → SameControl s t)
    (h : ∃ t, exec i s = .next t ∧
      if p < s.pc.toNat then FaultEntered .outOfBounds s t
      else if B then FaultEntered .invalidRegister s t
      else if C then FaultEntered .outOfBounds s t
      else R t) :
    ∃ t, exec i s = .next t ∧ EndsWith s t (firstFault i s) := by
  have hbytes : 256 < s.pc.toNat + i.length ↔ p < s.pc.toNat := by omega
  obtain ⟨t, hexec, hout⟩ := h
  refine ⟨t, hexec, ?_⟩
  simp only [firstFault, hbytes, hB, hC]
  split_ifs at hout ⊢ with _ hb
  · exact hout
  · exact hout
  · exact hout
  · obtain ⟨hstatus, -⟩ := hR hb t hout
    simp [EndsWith, hstatus, hrun]

/-- `endsWith_of_outcomes` for an instruction with one register operand. -/
theorem endsWith_of_oneRegister {p : Nat} {rb : Byte} {C : Prop} [Decidable C] {R : Fin 8 → State → Prop}
    (hrun : s.status = .running) (hp : p + i.length = 256) (hop : registerOperands i = [rb])
    (hC : executionCheckFails s i = true ↔ C) (hR : ∀ d t, R d t → SameControl s t)
    (h : ∃ t, exec i s = .next t ∧
      if p < s.pc.toNat then FaultEntered .outOfBounds s t
      else if 7 < rb.toNat then FaultEntered .invalidRegister s t
      else if C then FaultEntered .outOfBounds s t
      else ∀ d : Fin 8, d.val = rb.toNat → R d t) :
    ∃ t, exec i s = .next t ∧ EndsWith s t (firstFault i s) :=
  endsWith_of_outcomes hrun hp (by simp [hop]) hC
    (fun hrb _ hout => hR _ _ (hout ⟨rb.toNat, by omega⟩ rfl)) h

/-- `endsWith_of_outcomes` for ADD, MUL and CMP. -/
theorem endsWith_of_twoRegisters {ab bb : Byte} {R : Fin 8 → Fin 8 → State → Prop}
    (hrun : s.status = .running) (hlength : i.length = 3) (hop : registerOperands i = [ab, bb])
    (hC : executionCheckFails s i = true ↔ 252 < s.pc.toNat) (hR : ∀ d e t, R d e t → SameControl s t)
    (h : ∃ t, exec i s = .next t ∧
      if 253 < s.pc.toNat then FaultEntered .outOfBounds s t
      else if 7 < ab.toNat ∨ 7 < bb.toNat then FaultEntered .invalidRegister s t
      else if 252 < s.pc.toNat then FaultEntered .outOfBounds s t
      else ∀ d e : Fin 8, d.val = ab.toNat → e.val = bb.toNat → R d e t) :
    ∃ t, exec i s = .next t ∧ EndsWith s t (firstFault i s) :=
  endsWith_of_outcomes hrun (by rw [hlength]) (by simp [hop]) hC
    (fun hregs _ hout => hR _ _ _ (hout ⟨ab.toNat, by omega⟩ ⟨bb.toNat, by omega⟩ rfl rfl)) h

/-- The one byte of RET and of HLT is the opcode at pc, which is always inside memory (00_scope.md R11). -/
theorem bytes_inside_of_length_one (hlength : i.length = 1) : ¬256 < s.pc.toNat + i.length := by
  have hpc := s.pc.isLt
  omega

theorem firstFault_ret (s : State) : firstFault .ret s = if s.sp.toNat = 255 then some .outOfBounds else none := by
  have hbytes : ¬256 < s.pc.toNat + Instr.ret.length := bytes_inside_of_length_one rfl
  simp [firstFault, hbytes, registerOperands, executionCheckFails]

theorem firstFault_hlt (s : State) : firstFault .hlt s = none := by
  have hbytes : ¬256 < s.pc.toNat + Instr.hlt.length := bytes_inside_of_length_one rfl
  simp [firstFault, hbytes, registerOperands, executionCheckFails]

/-- CMP's rule is two operands, the next pc and one write of the flags: the ALU never refuses its comparison. -/
theorem execCmp_eq_complete (ab bb : Byte) (s : State) :
    execCmp ab bb s = complete s (twoRegs s ab bb >>= fun r => nextPc s 3 >>= fun n =>
      pure ((s.withFlags (compareFlags (s.readReg r.1) (s.readReg r.2))).withPc n)) := rfl

/-- From a Running core every instruction ends with its first fault, or completes where it has none. -/
theorem exec_endsWith_firstFault (hrun : s.status = .running) (i : Instr) :
    ∃ t, exec i s = .next t ∧ EndsWith s t (firstFault i s) := by
  cases i with
  | ldi r v =>
    exact endsWith_of_oneRegister hrun rfl rfl decide_eq_true_iff (fun _ _ ⟨_, _, _, _, _, _, hc⟩ => hc)
      (ldiLoadsImmediate r v s).2
  | prn r =>
    exact endsWith_of_oneRegister hrun rfl rfl decide_eq_true_iff (fun _ _ ⟨_, _, _, _, _, hc⟩ => hc)
      (prnEmitsRegister r s).2
  | add a b =>
    exact endsWith_of_twoRegisters hrun rfl rfl decide_eq_true_iff (fun _ _ _ ⟨_, _, _, _, _, _, hc⟩ => hc)
      (addWritesSumModulo256 a b s).2
  | mul a b =>
    exact endsWith_of_twoRegisters hrun rfl rfl decide_eq_true_iff (fun _ _ _ ⟨_, _, _, _, _, _, hc⟩ => hc)
      (mulWritesProductModulo256 a b s).2
  | cmp a b =>
    refine endsWith_of_twoRegisters hrun rfl rfl decide_eq_true_iff (fun _ _ _ hc => hc) ?_
    change ∃ t, execCmp a b s = .next t ∧ _
    rw [execCmp_eq_complete]
    exact complete_twoRegisters_outcomes fun _ _ _ _ => ⟨rfl, rfl, rfl, rfl⟩
  | push r =>
    exact endsWith_of_oneRegister hrun rfl rfl decide_eq_true_iff (fun _ _ ⟨_, _, _, _, _, _, hc⟩ => hc)
      (pushStoresBelowStackPointer r s).2
  | pop r =>
    exact endsWith_of_oneRegister hrun rfl rfl decide_eq_true_iff (fun _ _ ⟨_, _, _, _, _, _, _, hc⟩ => hc)
      (popLoadsFromStackPointer r s).2
  | call r =>
    exact endsWith_of_oneRegister hrun rfl rfl decide_eq_true_iff (fun _ _ ⟨_, _, _, _, _, hc⟩ => hc)
      (callPushesReturnAddress r s).2
  | jeq r =>
    exact endsWith_of_oneRegister hrun rfl rfl decide_eq_true_iff (fun _ _ ⟨_, _, _, _, _, _, hc⟩ => hc)
      (jeqJumpsWhenEqualSet r s).2
  | jne r =>
    exact endsWith_of_oneRegister hrun rfl rfl decide_eq_true_iff (fun _ _ ⟨_, _, _, _, _, _, hc⟩ => hc)
      (jneJumpsWhenEqualClear r s).2
  | jmp r =>
    refine endsWith_of_oneRegister (C := False) (R := fun _ => SameControl s) hrun rfl rfl
      Bool.false_eq_true.to_iff (fun _ _ => id) ?_
    change ∃ t, execJmp r s = .next t ∧ _
    exact complete_oneReg_outcomes fun d _ => ⟨s.withPc (s.readReg d), rfl, by simp [SameControl]⟩
  | ret =>
    obtain ⟨t, hexec, hout⟩ := (retPopsProgramCounter s).2
    refine ⟨t, hexec, ?_⟩
    rw [firstFault_ret]
    split_ifs at hout ⊢ with hsp
    · exact hout
    · obtain ⟨_, _, _, _, _, _, hstatus, -⟩ := hout
      simp [EndsWith, hstatus, hrun]
  | hlt =>
    rw [firstFault_hlt]
    exact ⟨s.halt, rfl, nofun⟩

/-- The fault an instruction takes from a Running core is its first fault, and it takes one exactly when it has one. -/
theorem exec_faultEntered_iff (hrun : s.status = .running) :
    (∃ t, exec i s = .next t ∧ FaultEntered c s t) ↔ firstFault i s = some c := by
  obtain ⟨t, hexec, hend⟩ := exec_endsWith_firstFault hrun i
  constructor
  · rintro ⟨t', hexec', hfault⟩
    obtain rfl : t = t' := Host.Outcome.next.inj (hexec.symm.trans hexec')
    cases hfirst : firstFault i s with
    | some c' =>
      rw [hfirst] at hend
      rw [hfault.cause_unique hend]
    | none =>
      rw [hfirst] at hend
      exact absurd hfault.status_eq hend
  · intro hfirst
    rw [hfirst] at hend
    exact ⟨t, hexec, hend⟩

/-- The cause code of a faulting instruction is that of its first fault. -/
theorem exec_faultCode (hrun : s.status = .running) (h : exec i s = .next t) (hfirst : firstFault i s = some c) :
    t.faultCode = c.code := by
  obtain ⟨t', h', hfault⟩ := (exec_faultEntered_iff hrun).mpr hfirst
  obtain rfl : t = t' := Host.Outcome.next.inj (h.symm.trans h')
  exact hfault.faultCode_eq

theorem firstFault_eq_invalidRegister :
    firstFault i s = some .invalidRegister ↔
      s.pc.toNat + i.length ≤ 256 ∧ ∃ b ∈ registerOperands i, 7 < b.toNat := by
  unfold firstFault
  split_ifs with hbytes hregs
  · simp [hbytes]
  · simp [hregs, not_lt.mp hbytes]
  · simp [hregs]
  · simp [hregs]

/-- With legal register operands the first fault is items (2) and (4) of R186, which share their cause. -/
theorem firstFault_eq_some_of_legal (hlegal : ∀ b ∈ registerOperands i, b.toNat ≤ 7) :
    firstFault i s = some c ↔
      c = .outOfBounds ∧ (256 < s.pc.toNat + i.length ∨ executionCheckFails s i = true) := by
  have hregs : ¬∃ b ∈ registerOperands i, 7 < b.toNat := fun ⟨b, hb, hb7⟩ => (hlegal b hb).not_gt hb7
  rw [firstFault, if_neg hregs]
  split_ifs with hbytes hcheck
  · rw [Option.some.injEq, eq_comm, and_iff_left (.inl hbytes)]
  · rw [Option.some.injEq, eq_comm, and_iff_left (.inr hcheck)]
  · simp [hbytes, hcheck]

/-- Settles O15: item (3) of R186 is the first that applies. -/
theorem invalidRegisterExactlyWhenOperandAboveSeven : Obligations.InvalidRegisterExactlyWhenOperandAboveSeven :=
  fun _ _ hrun => (exec_faultEntered_iff hrun).trans firstFault_eq_invalidRegister

/-- Settles O14: with legal register operands the fault is item (2) or (4) of R186, and each row of the table of R183
is the two together. -/
theorem outOfBoundsExactlyInTheTabledCases : Obligations.OutOfBoundsExactlyInTheTabledCases := by
  intro i s hrun hlegal
  rw [exec_faultEntered_iff hrun, firstFault_eq_some_of_legal hlegal, and_iff_right rfl]
  have hpc := s.pc.isLt
  cases i with
  | ldi | add | mul | cmp =>
    change 256 < s.pc.toNat + 3 ∨ _ ↔ _
    rw [executionCheckFails, decide_eq_true_iff]
    omega
  | prn | push | call =>
    change 256 < s.pc.toNat + 2 ∨ _ ↔ _
    rw [executionCheckFails, decide_eq_true_iff]
    omega
  | pop r =>
    change 256 < s.pc.toNat + 2 ∨ _ ↔ _
    rw [executionCheckFails, decide_eq_true_iff]
    split_ifs with h7
    · grind
    · grind
  | jeq | jne =>
    change 256 < s.pc.toNat + 2 ∨ _ ↔ _
    rw [executionCheckFails, decide_eq_true_iff]
    grind
  | jmp =>
    change 256 < s.pc.toNat + 2 ∨ false = true ↔ s.pc.toNat = 255
    rw [or_iff_left Bool.false_ne_true]
    omega
  | ret =>
    rw [executionCheckFails, decide_eq_true_iff]
    exact or_iff_right (bytes_inside_of_length_one rfl)
  | hlt =>
    exact iff_of_false (not_or.mpr ⟨bytes_inside_of_length_one rfl, Bool.false_ne_true⟩) id

/-- Where all bytes of an instruction stand at pc they end inside memory. -/
theorem InstrAt.end_le (h : InstrAt opc i s) : s.pc.toNat + i.length ≤ 256 := by
  have hle := (instrAt_iff_prefix.mp h).length_le
  rw [length_encodeWith, length_fetchBytes] at hle
  have hpc := s.pc.isLt
  omega

/-- Settles O16: an unknown opcode and missing operand bytes fault at the fetch, a whole instruction with its first
fault. -/
theorem faultPriorityDecidesTheCauseCode : Obligations.FaultPriorityDecidesTheCauseCode := by
  intro opc s t hopc h hf
  have hrun := (cycle_cases h).1
  refine ⟨fun hunknown => ?_, fun i hat hregs => ?_, fun i hat hlegal => ?_, fun m hm hend => ?_⟩
  · rw [cycle_of_unknownOpcode hrun hunknown] at h
    cases h
    rfl
  · rw [cycle_of_instrAt hopc hrun hat] at h
    exact exec_faultCode hrun h (firstFault_eq_invalidRegister.mpr ⟨hat.end_le, hregs⟩)
  · rw [cycle_of_instrAt hopc hrun hat] at h
    obtain ⟨c, hfault⟩ := exec_faulted hrun h hf
    have hfirst : firstFault i s = some c := (exec_faultEntered_iff hrun).mp ⟨t, h, hfault⟩
    obtain ⟨rfl, -⟩ := (firstFault_eq_some_of_legal hlegal).mp hfirst
    exact hfault.faultCode_eq
  · rw [cycle_of_truncated hopc hrun ⟨m, hm, hend⟩] at h
    cases h
    rfl

end Sys2Proof.Machine

namespace Sys2Proof.Machine

variable {s t : State} {opc : OpcodeMap} {i : Instr}

/-! ### The invariant -/

theorem cycle_keeps_memoryWf (hwf : s.mem.wf) (h : cycle opc s = .next t) : t.mem.wf := by
  obtain ⟨-, rfl | rfl | ⟨i, hexec⟩⟩ := cycle_cases h
  · exact hwf
  · exact hwf
  · obtain hmem | ⟨-, -, a, v, -, hmem⟩ := exec_memory hexec
    · rwa [hmem]
    · rw [hmem]
      exact wf_write hwf a v

/-- Without a latched cause the record is legal exactly in a state that is not Faulted (10_state.md R31). -/
theorem faultRecordLegal_of_cause_none (hcause : s.faultCause = none) : FaultRecordLegal s ↔ s.status ≠ .faulted := by
  simp [FaultRecordLegal, hcause]

/-- A legal record of a Running core holds no cause. -/
theorem FaultRecordLegal.cause_eq_none (h : FaultRecordLegal s) (hrun : s.status = .running) : s.faultCause = none := by
  cases hcause : s.faultCause with
  | none => rfl
  | some c => simp [FaultRecordLegal, hcause, hrun] at h

/-- Fault entry latches pc and M[pc] with its cause (60_exceptions.md R188). -/
theorem faultRecordLegal_takeFault {c : FaultCause} (hc : c ≠ .unsupportedOperation) (s : State) :
    FaultRecordLegal (takeFault c s) :=
  ⟨rfl, hc, rfl, rfl⟩

theorem FaultTaken.faultRecordLegal (h : FaultTaken s t) : FaultRecordLegal t := by
  obtain rfl | rfl := h
  · exact faultRecordLegal_takeFault (by decide) s
  · exact faultRecordLegal_takeFault (by decide) s

/-- A step makes or keeps the record legal: it starts Running, so with no cause, and only fault entry latches one. -/
theorem cycle_keeps_faultRecordLegal (hrec : FaultRecordLegal s) (h : cycle opc s = .next t) : FaultRecordLegal t := by
  obtain ⟨hrun, rfl | rfl | ⟨i, hexec⟩⟩ := cycle_cases h
  · exact faultRecordLegal_takeFault (by decide) s
  · exact faultRecordLegal_takeFault (by decide) s
  · have hnone := hrec.cause_eq_none hrun
    obtain hfault | ⟨-, rfl⟩ | ⟨-, hstatus, hcause, -⟩ := exec_control hexec
    · exact hfault.faultRecordLegal
    · rw [faultRecordLegal_of_cause_none (s := s.halt) hnone]
      nofun
    · rw [faultRecordLegal_of_cause_none (hcause.trans hnone), hstatus, hrun]
      nofun

/-- Settles O36: each part of the invariant is kept by itself. -/
theorem everyStepKeepsTheInvariant : Obligations.EveryStepKeepsTheInvariant := fun _ _ _ ⟨hwf, hfl, hrec⟩ h =>
  ⟨cycle_keeps_memoryWf hwf h, cycle_keeps_flagsLegal hfl h, cycle_keeps_faultRecordLegal hrec h⟩

/-- Settles O37: at launch all flags are false and no cause is latched. -/
theorem invariantHoldsAtReset : Obligations.InvariantHoldsAtReset :=
  ⟨⟨wf_empty, .inl rfl, nofun⟩, fun image _ => ⟨wf_foldr_write image addresses, .inl rfl, nofun⟩⟩

/-! ### What no instruction reads -/

/-- A relation between states that differ at most in what no instruction reads: what the fetch, the checks and the
instructions do read is alike on both sides, and every update a rule makes keeps the relation. -/
structure Hidden (R : State → State → Prop) : Prop where
  regs_eq : ∀ {s s'}, R s s' → s'.regs = s.regs
  pc_eq : ∀ {s s'}, R s s' → s'.pc = s.pc
  e_eq : ∀ {s s'}, R s s' → s'.fl.e = s.fl.e
  status_eq : ∀ {s s'}, R s s' → s'.status = s.status
  mem_eq : ∀ {s s'}, R s s' → s'.mem = s.mem
  writeReg : ∀ {s s'} i v, R s s' → R (s.writeReg i v) (s'.writeReg i v)
  withPc : ∀ {s s'} a, R s s' → R (s.withPc a) (s'.withPc a)
  withFlags : ∀ {s s'} fl, R s s' → R (s.withFlags fl) (s'.withFlags fl)
  store : ∀ {s s'} a v, R s s' → R (s.store a v) (s'.store a v)
  emit : ∀ {s s'} v, R s s' → R (s.emit v) (s'.emit v)
  halt : ∀ {s s'}, R s s' → R s.halt s'.halt
  takeFault : ∀ {s s'} c, R s s' → R (takeFault c s) (takeFault c s')

variable {R : State → State → Prop} {s' : State} {rb ab bb v : Byte}

/-- Two rules that raise the same fault or compute related states. -/
inductive RelatedRules (R : State → State → Prop) : Except FaultCause State → Except FaultCause State → Prop where
  | ok {t t' : State} (h : R t t') : RelatedRules R (.ok t) (.ok t')
  | error (c : FaultCause) : RelatedRules R (.error c) (.error c)

/-- Where the first outcome is a next state, so is the second, and the two are related. -/
def RelatedOutcomes (R : State → State → Prop) (o o' : Host.Outcome State Fault Refusal) : Prop :=
  ∀ t, o = .next t → ∃ t', o' = .next t' ∧ R t t'

/-- A check that answers alike on both sides, and related rules after it. -/
theorem RelatedRules.bind {α : Type} {x x' : Except FaultCause α} {f f' : α → Except FaultCause State} (hx : x' = x)
    (hf : ∀ a, RelatedRules R (f a) (f' a)) : RelatedRules R (x >>= f) (x' >>= f') := by
  subst hx
  cases x' with
  | ok a => exact hf a
  | error c => exact .error c

theorem relatedOutcomes_next {t t' : State} (h : R t t') : RelatedOutcomes R (.next t) (.next t') := by
  rintro _ ⟨⟩
  exact ⟨t', rfl, h⟩

/-- Related rules complete alike: where both raise a fault, both end in fault entry. -/
theorem relatedOutcomes_complete (hR : Hidden R) (hs : R s s') {rule rule' : Except FaultCause State}
    (hrule : RelatedRules R rule rule') : RelatedOutcomes R (complete s rule) (complete s' rule') := by
  cases hrule with
  | ok ht => exact relatedOutcomes_next ht
  | error c => exact relatedOutcomes_next (hR.takeFault c hs)

/-! The checks look at pc and the operand bytes alone. -/

theorem nextPc_congr (h : s'.pc = s.pc) (w : Nat) : nextPc s' w = nextPc s w := by
  rw [nextPc, nextPc, h]

theorem operandAddress_congr (h : s'.pc = s.pc) (k : Nat) : operandAddress s' k = operandAddress s k := by
  rw [operandAddress, operandAddress, h]

theorem oneReg_congr (h : s'.pc = s.pc) : oneReg s' rb = oneReg s rb := by
  simp only [oneReg, operandAddress_congr h]

theorem regAndImm_congr (h : s'.pc = s.pc) : regAndImm s' rb = regAndImm s rb := by
  simp only [regAndImm, operandAddress_congr h]

theorem twoRegs_congr (h : s'.pc = s.pc) : twoRegs s' ab bb = twoRegs s ab bb := by
  simp only [twoRegs, operandAddress_congr h]

theorem returnAddress_congr (h : s'.pc = s.pc) : returnAddress s' = returnAddress s := by
  rw [returnAddress, returnAddress, h]

theorem readReg_congr (h : s'.regs = s.regs) (j : Fin 8) : s'.readReg j = s.readReg j := by
  rw [State.readReg, State.readReg, h]

theorem sp_congr (h : s'.regs = s.regs) : s'.sp = s.sp := readReg_congr h Config.spIndex

theorem pushAddress_congr (h : s'.regs = s.regs) : pushAddress s' = pushAddress s := by
  rw [pushAddress, pushAddress, sp_congr h]

theorem fetchBytes_congr (hpc : s'.pc = s.pc) (hmem : s'.mem = s.mem) : fetchBytes s' = fetchBytes s := by
  have hbyte : fetchByte s' = fetchByte s := by
    funext k
    rw [fetchByte, fetchByte, hpc, hmem]
  rw [fetchBytes, fetchBytes, hbyte]

section

variable (hR : Hidden R) (hs : R s s')
include hR hs

theorem execLdi_hidden : RelatedOutcomes R (execLdi rb v s) (execLdi rb v s') :=
  have hpc := hR.pc_eq hs
  relatedOutcomes_complete hR hs (.bind (regAndImm_congr hpc) fun r => .bind (nextPc_congr hpc 3) fun n =>
    .ok (hR.withPc n (hR.writeReg r v hs)))

theorem execPrn_hidden : RelatedOutcomes R (execPrn rb s) (execPrn rb s') := by
  have hpc := hR.pc_eq hs
  refine relatedOutcomes_complete hR hs (.bind (oneReg_congr hpc) fun r => .bind (nextPc_congr hpc 2) fun n => .ok ?_)
  rw [readReg_congr (hR.regs_eq hs)]
  exact hR.withPc n (hR.emit _ hs)

theorem complete_arithmetic_hidden (op : AluOp) :
    RelatedOutcomes R (complete s (arithmetic op ab bb s)) (complete s' (arithmetic op ab bb s')) := by
  have hpc := hR.pc_eq hs
  have hread := readReg_congr (hR.regs_eq hs)
  refine relatedOutcomes_complete hR hs (.bind (twoRegs_congr hpc) fun (a, b) => .bind (nextPc_congr hpc 3) fun n =>
    .bind ?_ fun v => .ok (hR.withPc n (hR.writeReg a v hs)))
  rw [hread, hread]

theorem execAdd_hidden : RelatedOutcomes R (execAdd ab bb s) (execAdd ab bb s') :=
  complete_arithmetic_hidden hR hs .add

theorem execMul_hidden : RelatedOutcomes R (execMul ab bb s) (execMul ab bb s') :=
  complete_arithmetic_hidden hR hs .mul

theorem execCmp_hidden : RelatedOutcomes R (execCmp ab bb s) (execCmp ab bb s') := by
  have hpc := hR.pc_eq hs
  have hread := readReg_congr (hR.regs_eq hs)
  refine relatedOutcomes_complete hR hs (.bind (twoRegs_congr hpc) fun (a, b) => .bind (nextPc_congr hpc 3) fun n =>
    .bind ?_ fun fl => .ok (hR.withPc n (hR.withFlags fl hs)))
  rw [hread, hread]

theorem execPush_hidden : RelatedOutcomes R (execPush rb s) (execPush rb s') := by
  have hpc := hR.pc_eq hs
  refine relatedOutcomes_complete hR hs (.bind (oneReg_congr hpc) fun r =>
    .bind (pushAddress_congr (hR.regs_eq hs)) fun a => .bind (nextPc_congr hpc 2) fun n => .ok ?_)
  have hpushed := hR.writeReg 7 a hs
  rw [readReg_congr (hR.regs_eq hpushed)]
  exact hR.withPc n (hR.store a _ hpushed)

theorem execPop_hidden : RelatedOutcomes R (execPop rb s) (execPop rb s') := by
  have hpc := hR.pc_eq hs
  refine relatedOutcomes_complete hR hs (.bind (oneReg_congr hpc) fun r => ?_)
  rw [hR.mem_eq hs, sp_congr (hR.regs_eq hs)]
  have hloaded := hR.writeReg r (s.mem.read s.sp) hs
  refine .bind ?_ fun sp' => .bind (nextPc_congr hpc 2) fun n => .ok (hR.withPc n (hR.writeReg 7 sp' hloaded))
  rw [popBase, popBase, sp_congr (hR.regs_eq hloaded)]

theorem execCall_hidden : RelatedOutcomes R (execCall rb s) (execCall rb s') := by
  have hpc := hR.pc_eq hs
  refine relatedOutcomes_complete hR hs (.bind (oneReg_congr hpc) fun r => .bind (returnAddress_congr hpc) fun ra =>
    .bind (pushAddress_congr (hR.regs_eq hs)) fun a => .ok ?_)
  have hpushed := hR.store a ra (hR.writeReg 7 a hs)
  rw [readReg_congr (hR.regs_eq hpushed)]
  exact hR.withPc _ hpushed

theorem execRet_hidden : RelatedOutcomes R (execRet s) (execRet s') := by
  have hsp := sp_congr (hR.regs_eq hs)
  refine relatedOutcomes_complete hR hs (.bind (by rw [hsp]) fun sp' => .ok ?_)
  rw [hR.mem_eq hs, hsp]
  exact hR.writeReg 7 sp' (hR.withPc _ hs)

/-- Of the flags a conditional jump reads E alone (43_control_transfer.md R147, R148). -/
theorem complete_jumpIf_hidden {taken taken' : Bool} (htaken : taken' = taken) :
    RelatedOutcomes R (complete s (jumpIf taken rb s)) (complete s' (jumpIf taken' rb s')) := by
  subst htaken
  have hpc := hR.pc_eq hs
  refine relatedOutcomes_complete hR hs (.bind (oneReg_congr hpc) fun r => ?_)
  cases taken' with
  | true =>
    refine .ok ?_
    rw [readReg_congr (hR.regs_eq hs)]
    exact hR.withPc _ hs
  | false => exact .bind (nextPc_congr hpc 2) fun n => .ok (hR.withPc n hs)

theorem execJeq_hidden : RelatedOutcomes R (execJeq rb s) (execJeq rb s') :=
  complete_jumpIf_hidden hR hs (hR.e_eq hs)

theorem execJne_hidden : RelatedOutcomes R (execJne rb s) (execJne rb s') :=
  complete_jumpIf_hidden hR hs (congrArg not (hR.e_eq hs))

theorem execJmp_hidden : RelatedOutcomes R (execJmp rb s) (execJmp rb s') := by
  refine relatedOutcomes_complete hR hs (.bind (oneReg_congr (hR.pc_eq hs)) fun r => .ok ?_)
  rw [readReg_congr (hR.regs_eq hs)]
  exact hR.withPc _ hs

/-- No instruction reads what a hidden relation leaves free. -/
theorem exec_hidden (i : Instr) : RelatedOutcomes R (exec i s) (exec i s') := by
  cases i with
  | ldi rb v => exact execLdi_hidden hR hs
  | prn rb => exact execPrn_hidden hR hs
  | add ab bb => exact execAdd_hidden hR hs
  | mul ab bb => exact execMul_hidden hR hs
  | push rb => exact execPush_hidden hR hs
  | pop rb => exact execPop_hidden hR hs
  | call rb => exact execCall_hidden hR hs
  | ret => exact execRet_hidden hR hs
  | cmp ab bb => exact execCmp_hidden hR hs
  | jeq rb => exact execJeq_hidden hR hs
  | jne rb => exact execJne_hidden hR hs
  | jmp rb => exact execJmp_hidden hR hs
  | hlt => exact relatedOutcomes_next (hR.halt hs)

/-- Nor does the fetch, under any opcode map. -/
theorem cycle_hidden (opc : OpcodeMap) : RelatedOutcomes R (cycle opc s) (cycle opc s') := by
  intro t h
  have hrun := (cycle_cases h).1
  rw [cycle_running hrun] at h
  rw [cycle_running ((hR.status_eq hs).trans hrun), fetchBytes_congr (hR.pc_eq hs) (hR.mem_eq hs)]
  match hd : decodeWith opc (fetchBytes s) with
  | .ok (i, _) =>
    rw [hd] at h
    exact exec_hidden hR hs i t h
  | .error (.unknownOpcode b) =>
    rw [hd] at h
    exact relatedOutcomes_next (hR.takeFault _ hs) t h
  | .error .truncated =>
    rw [hd] at h
    exact relatedOutcomes_next (hR.takeFault _ hs) t h

end

theorem hidden_agreeButLG : Hidden AgreeButLG where
  regs_eq := fun ⟨hregs, _⟩ => hregs
  pc_eq := fun ⟨_, hpc, _⟩ => hpc
  e_eq := fun ⟨_, _, he, _⟩ => he
  status_eq := fun ⟨_, _, _, hstatus, _⟩ => hstatus
  mem_eq := fun ⟨_, _, _, _, _, _, _, hmem, _⟩ => hmem
  writeReg := fun _ _ h => by simp_all [AgreeButLG]
  withPc := fun _ h => by simp_all [AgreeButLG]
  withFlags := fun _ h => by simp_all [AgreeButLG]
  store := fun _ _ h => by simp_all [AgreeButLG]
  emit := fun _ h => by simp_all [AgreeButLG]
  halt := fun h => by simp_all [AgreeButLG]
  takeFault := fun _ h => by simp_all [AgreeButLG]

/-- Settles O39: L and G are hidden. -/
theorem lessAndGreaterInfluenceNothing : Obligations.LessAndGreaterInfluenceNothing := fun opc _ _ t hs =>
  cycle_hidden hidden_agreeButLG hs opc t

/-- The two states agree but in the fault record and the output, which has grown by the same bytes from `out₀` and from
`out₀'`. -/
def AgreeSince (out₀ out₀' : List Byte) (s s' : State) : Prop :=
  AgreeButRecordAndOut s s' ∧ ∃ emitted, s.out = out₀ ++ emitted ∧ s'.out = out₀' ++ emitted

theorem hidden_agreeSince (out₀ out₀' : List Byte) : Hidden (AgreeSince out₀ out₀') where
  regs_eq := fun ⟨⟨hregs, _⟩, _⟩ => hregs
  pc_eq := fun ⟨⟨_, hpc, _⟩, _⟩ => hpc
  e_eq := fun ⟨⟨_, _, hfl, _⟩, _⟩ => congrArg Flags.e hfl
  status_eq := fun ⟨⟨_, _, _, hstatus, _⟩, _⟩ => hstatus
  mem_eq := fun ⟨⟨_, _, _, _, hmem⟩, _⟩ => hmem
  writeReg := fun _ _ ⟨h, hout⟩ => ⟨by simp_all [AgreeButRecordAndOut], hout⟩
  withPc := fun _ ⟨h, hout⟩ => ⟨by simp_all [AgreeButRecordAndOut], hout⟩
  withFlags := fun _ ⟨h, hout⟩ => ⟨by simp_all [AgreeButRecordAndOut], hout⟩
  store := fun _ _ ⟨h, hout⟩ => ⟨by simp_all [AgreeButRecordAndOut], hout⟩
  emit := fun v ⟨h, emitted, hout, hout'⟩ => ⟨h, emitted ++ [v], by simp [hout], by simp [hout']⟩
  halt := fun ⟨h, hout⟩ => ⟨by simp_all [AgreeButRecordAndOut], hout⟩
  takeFault := fun _ ⟨h, hout⟩ => ⟨by simp_all [AgreeButRecordAndOut], hout⟩

/-- Settles O40: the record and the outputs before the step are hidden. -/
theorem recordAndOutputAreNeverRead : Obligations.RecordAndOutputAreNeverRead := by
  intro opc s s' t hs h
  obtain ⟨t', h', hagree, hout⟩ := cycle_hidden (hidden_agreeSince s.out s'.out) ⟨hs, [], by simp, by simp⟩ opc t h
  exact ⟨t', h', hagree, hout⟩

end Sys2Proof.Machine

namespace Sys2Proof

variable {opc : OpcodeMap} {b : Byte}

/-- Settles O25: the operand decoder reads back what the encoder wrote after the opcode. -/
theorem decodeOfEncodeReturnsTheInstruction : Obligations.DecodeOfEncodeReturnsTheInstruction :=
  fun _ i rest hopc => decodeWith_encodeWith_append hopc i rest

/-- Settles O26: the decoder skips no byte and drops no bit. -/
theorem encodeOfDecodeReturnsTheBytes : Obligations.EncodeOfDecodeReturnsTheBytes :=
  fun _ _ _ _ => encodeWith_append_of_decodeWith

/-- Decoding from the opcode of a mnemonic gives that mnemonic's instruction or finds too few bytes. -/
theorem decodeWith_opc_cons (hopc : opc.Distinct) (m : Mnemonic) (rest : List Byte) :
    decodeWith opc (opc m :: rest) = .error .truncated ∨
      ∃ i bs, decodeWith opc (opc m :: rest) = .ok (i, bs) ∧ i.mnemonic = m := by
  rw [decodeWith_cons, lookupOpcode_opc hopc]
  exact (decodeOperands_cases m rest).imp (fun ⟨hd, _⟩ => hd) fun ⟨i, bs, hd, hm, _⟩ => ⟨i, bs, hd, hm⟩

/-- Settles O27: a byte is looked up among the opcodes, which are distinct. -/
theorem everyByteIsOneOpcodeOrUnknown : Obligations.EveryByteIsOneOpcodeOrUnknown := by
  intro opc b hopc
  by_cases h : ∃ m, opc m = b
  · obtain ⟨m, rfl⟩ := h
    exact .inl ⟨m, rfl, fun m' => hopc m' m, decodeWith_opc_cons hopc m⟩
  · have hunknown := not_exists.mp h
    exact .inr ⟨hunknown, fun _ => decodeWith_eq_unknownOpcode.mpr ⟨rfl, hunknown⟩⟩

/-- The look-up finds an instruction for the opcodes and for no other byte. -/
theorem isSome_lookupOpcode : (lookupOpcode opc b).isSome = true ↔ b ∈ mnemonics.map opc := by
  rw [← Option.not_isNone, Bool.not_eq_true', Bool.eq_false_iff, ne_eq, Option.isNone_iff_eq_none, lookupOpcode_none]
  simp [mem_mnemonics]

/-- Distinct opcodes make thirteen of the addresses opcodes. -/
theorem length_filter_isSome_lookupOpcode (hopc : opc.Distinct) :
    (Machine.addresses.filter fun b => (lookupOpcode opc b).isSome).length = 13 := by
  have hopcodes : (mnemonics.map opc).Nodup := List.Nodup.map (fun _ _ => hopc _ _) (by decide)
  have hperm : (Machine.addresses.filter fun b => (lookupOpcode opc b).isSome).Perm (mnemonics.map opc) := by
    rw [List.perm_ext_iff_of_nodup (Machine.addresses_nodup.filter _) hopcodes]
    simp [Machine.mem_addresses, isSome_lookupOpcode]
  rw [hperm.length_eq, List.length_map]
  rfl

/-- Settles O28: the other 243 of the 256 bytes are no opcode. -/
theorem unknownOpcodesAre243 : Obligations.UnknownOpcodesAre243 := by
  intro opc hopc
  have hsplit := List.length_eq_length_filter_add (l := Machine.addresses) fun b => (lookupOpcode opc b).isSome
  have hall : Machine.addresses.length = 256 := by simp [Machine.addresses]
  simp only [Option.not_isSome, hall, length_filter_isSome_lookupOpcode hopc] at hsplit
  omega

/-- Settles O29: the decoder is run on each word. -/
theorem decodesWordsWrittenOut : Obligations.DecodesWordsWrittenOut :=
  ⟨rfl, rfl, rfl, rfl, rfl, rfl, rfl, rfl⟩

end Sys2Proof

namespace Sys2Proof.Machine

variable {s t : State} {opc : OpcodeMap} {i : Instr}

/-! ### Reset and load -/

/-- Settles O34: the image of the program is read back at every address, inside the program and above it. -/
theorem loaderPlacesTheProgramFromZero : Obligations.LoaderPlacesTheProgramFromZero := by
  intro bytes
  refine ⟨fun hfits => ⟨_, if_pos hfits, wf_foldr_write _ _, fun a => ?_⟩, fun hlong => if_neg (not_le.mpr hlong)⟩
  rw [read_imageMemory, programImage]
  exact ⟨fun b hb => by rw [List.getD_eq_getElem?_getD, hb, Option.getD_some], List.getD_eq_default bytes _⟩

/-- R0 to R6 hold 0 after reset (10_state.md R36). -/
theorem reset_readReg_of_ne_sp : ∀ j : Fin 8, j ≠ 7 → State.reset.readReg j = 0#8 := by decide

/-- Settles O32: the state before does not occur in the state after. -/
theorem resetForgetsTheStateBefore : Obligations.ResetForgetsTheStateBefore := fun _ _ _ =>
  ⟨rfl, reset_readReg_of_ne_sp, rfl, rfl, rfl, fun _ => rfl, rfl⟩

/-- Settles O35: by the three values of the status. -/
theorem exitStatusZeroOnlyForCleanEnd : Obligations.ExitStatusZeroOnlyForCleanEnd := by
  intro exitFault s hne
  cases h : s.status <;> simp [exitStatus, CleanEnd, h, hne]

/-! ### CMP -/

/-- The flags of a comparison, each by the unsigned order of the two bytes (41_alu.md R123). -/
theorem compareFlags_iff (x y : Byte) :
    ((compareFlags x y).e = true ↔ x.toNat = y.toNat) ∧ ((compareFlags x y).l = true ↔ x.toNat < y.toNat) ∧
      ((compareFlags x y).g = true ↔ y.toNat < x.toNat) := by
  unfold compareFlags
  split_ifs with heq hlt
  · simp [heq]
  · simp [heq, hlt, hlt.le]
  · simp [heq, hlt]
    omega

/-- Settles O5: past its checks CMP writes the flags and pc alone. -/
theorem cmpSetsExactlyOneFlag : Obligations.CmpSetsExactlyOneFlag := by
  intro ab bb s
  refine ⟨fun _ => rfl, ?_⟩
  change ∃ t, execCmp ab bb s = .next t ∧ _
  rw [execCmp_eq_complete]
  refine complete_twoRegisters_outcomes fun a b n hn => ?_
  obtain ⟨he, hl, hg⟩ := compareFlags_iff (s.readReg a) (s.readReg b)
  exact ⟨he, hl, hg, fun _ => rfl, hn, fun _ => rfl, rfl, rfl, rfl, rfl, rfl⟩

/-! ### Steps and runs -/

/-- Settles O20: the cycle adds nothing around `exec`. -/
theorem stepRunsTheDecodedInstruction : Obligations.StepRunsTheDecodedInstruction := by
  intro s i rest hrun hd
  have hd' : decodeWith defaultOpc (fetchBytes s) = .ok (i, rest) := hd
  rw [step, cycle_running hrun, hd']

/-- An instruction has a next state in a Running core. -/
theorem exists_exec_next (hrun : s.status = .running) (i : Instr) : ∃ t, exec i s = .next t := by
  obtain ⟨t, h, -⟩ := exec_endsWith_firstFault hrun i
  exact ⟨t, h⟩

/-- Settles O22: fault entry and every instruction have a next state. -/
theorem runningCoreAlwaysSteps : Obligations.RunningCoreAlwaysSteps := by
  intro opc s hrun
  rw [cycle_running hrun]
  match decodeWith opc (fetchBytes s) with
  | .ok (i, _) => exact exists_exec_next hrun i
  | .error (.unknownOpcode _) => exact ⟨_, rfl⟩
  | .error .truncated => exact ⟨_, rfl⟩

theorem step_halted (h : s.status = .halted) : step s = .fault .halted := by simp [step, cycle, h]

theorem step_faulted (h : s.status = .faulted) : step s = .fault .faulted := by simp [step, cycle, h]

/-- No run goes past a step that stops. -/
theorem run_succ_ne_next {r : Fault} (h : step s = .fault r) (k : Nat) (t : State) :
    Sys2Proof.core.run (k + 1) s ≠ .next t := by
  rw [run_succ_fault h]
  nofun

/-- Settles O23: a run of one step or more begins with a step that stops. -/
theorem terminalStatesHaveNoStep : Obligations.TerminalStatesHaveNoStep := fun _ =>
  ⟨fun h => ⟨step_halted h, run_succ_ne_next (step_halted h)⟩,
    fun h => ⟨step_faulted h, run_succ_ne_next (step_faulted h)⟩⟩

/-- A state that steps to itself is where every run from it ends. -/
theorem run_of_step_self (h : step s = .next s) (k : Nat) : Sys2Proof.core.run k s = .next s := by
  induction k with
  | zero => exact run_zero s
  | succ k ih => rw [run_succ_next h, ih]

/-- A JMP whose operand is legal goes to the address in its register (43_control_transfer.md R149). -/
theorem exec_jmp_eq_next {rb : Byte} {d : Fin 8} (hpc : s.pc.toNat ≤ 254) (hd : d.val = rb.toNat) :
    exec (.jmp rb) s = .next (s.withPc (s.readReg d)) := by
  change execJmp rb s = _
  rw [execJmp, oneReg_eq_ok.mpr ⟨hpc, hd⟩]
  rfl

/-- Settles O24: a JMP to its own address sets pc to what it was. -/
theorem selfJumpNeverEnds : Obligations.SelfJumpNeverEnds := by
  intro s rb d hrun hat hd htarget
  have hpc : s.pc.toNat + 2 ≤ 256 := hat.end_le
  refine run_of_step_self ?_
  calc step s = exec (.jmp rb) s := cycle_of_instrAt defaultOpc_distinct hrun hat
    _ = .next (s.withPc (s.readReg d)) := exec_jmp_eq_next (by omega) hd
    _ = .next s := by rw [htarget]; rfl

/-- What an instruction does to the latched cause (60_exceptions.md R188): fault entry latches one of its two, and nothing
else touches it. -/
theorem exec_faultCause (h : exec i s = .next t) : FaultTaken s t ∨ t.faultCause = s.faultCause := by
  obtain hfault | ⟨-, rfl⟩ | ⟨-, -, hcause, -⟩ := exec_control h
  · exact .inl hfault
  · exact .inr rfl
  · exact .inr hcause

/-- Settles O19: no check of the fetch or of an instruction raises that fault; the ALU's own answers are run. -/
theorem noStepRaisesUnsupportedOperation : Obligations.NoStepRaisesUnsupportedOperation := by
  refine ⟨fun opc s t hcause h => ?_, fun _ _ => ⟨rfl, rfl, rfl⟩⟩
  obtain ⟨-, rfl | rfl | ⟨i, hexec⟩⟩ := cycle_cases h
  · nofun
  · nofun
  · obtain (rfl | rfl) | hsame := exec_faultCause hexec
    · nofun
    · nofun
    · rwa [hsame]

/-! ### What an instruction leaves unchanged -/

/-- Fault entry writes no register (60_exceptions.md R190). -/
theorem FaultTaken.readReg_eq (h : FaultTaken s t) (j : Fin 8) : t.readReg j = s.readReg j := by
  obtain rfl | rfl := h <;> rfl

/-- Settles O41: only the store of PUSH and CALL changes memory, and it belongs to a step that completes. -/
theorem onlyPushAndCallWriteMemory : Obligations.OnlyPushAndCallWriteMemory := by
  intro i s t h
  obtain hmem | ⟨⟨r, hi⟩, hstatus, a, v, ha, hmem⟩ := exec_memory h
  · have hsame : SameMem s t := fun _ => by rw [hmem]
    exact ⟨fun _ => hsame, fun _ _ _ b _ => hsame b, fun _ _ => hsame⟩
  · refine ⟨fun hstores => ?_, fun _ a' ha' b hb => ?_, fun hs ht => absurd (hstatus.symm.trans ht) hs⟩
    · obtain rfl | rfl := hi <;> cases hstores
    · obtain rfl : a = a' := Except.ok.inj (ha.symm.trans ha')
      rw [hmem, read_write_of_ne _ hb]

end Sys2Proof.Machine

namespace Sys2Proof.Machine

variable {s t u : State} {opc : OpcodeMap} {i : Instr}

/-- A register whose number is no destination's is not the one written. -/
theorem ne_of_val_not_mem {j r : Fin 8} {n : Nat} {l : List Nat} (hj : j.val ∉ l) (hn : n ∈ l) (hr : r.val = n) :
    j ≠ r := by
  rintro rfl
  exact hj (hr ▸ hn)

/-- Settles O44: each instruction's own writes, and fault entry writes none. -/
theorem onlyTheDestinationsAreWritten : Obligations.OnlyTheDestinationsAreWritten := by
  intro i s t h j hj
  cases i with
  | ldi r v =>
    obtain hfault | ⟨d, n, hd, -, rfl⟩ := execLdi_cases h
    · exact hfault.readReg_eq j
    · exact readReg_writeReg_of_ne s (ne_of_val_not_mem hj (by simp [destinations]) hd) v
  | prn r => exact (execPrn_cases h).elim (·.readReg_eq j) fun ⟨_, _, _, _, e⟩ => by simp [e]
  | add a b =>
    obtain hfault | ⟨d, _, n, hd, -, -, rfl⟩ := execAdd_cases h
    · exact hfault.readReg_eq j
    · exact readReg_writeReg_of_ne s (ne_of_val_not_mem hj (by simp [destinations]) hd) _
  | mul a b =>
    obtain hfault | ⟨d, _, n, hd, -, -, rfl⟩ := execMul_cases h
    · exact hfault.readReg_eq j
    · exact readReg_writeReg_of_ne s (ne_of_val_not_mem hj (by simp [destinations]) hd) _
  | push r =>
    obtain hfault | ⟨_, a, n, -, -, -, rfl⟩ := execPush_cases h
    · exact hfault.readReg_eq j
    · exact readReg_writeReg_of_ne s (ne_of_val_not_mem hj (by simp [destinations]) rfl) a
  | pop r =>
    obtain hfault | ⟨d, sp', n, hd, -, -, rfl⟩ := execPop_cases h
    · exact hfault.readReg_eq j
    · have hd' : j ≠ d := ne_of_val_not_mem hj (by simp [destinations]) hd
      have h7 : j ≠ 7 := ne_of_val_not_mem hj (by simp [destinations]) rfl
      rw [readReg_withPc, readReg_writeReg_of_ne _ h7, readReg_writeReg_of_ne _ hd']
  | call r =>
    obtain hfault | ⟨_, ra, a, -, -, -, rfl⟩ := execCall_cases h
    · exact hfault.readReg_eq j
    · exact readReg_writeReg_of_ne s (ne_of_val_not_mem hj (by simp [destinations]) rfl) a
  | ret =>
    obtain hfault | ⟨sp', -, rfl⟩ := execRet_cases h
    · exact hfault.readReg_eq j
    · exact readReg_writeReg_of_ne _ (ne_of_val_not_mem hj (by simp [destinations]) rfl) sp'
  | cmp a b => exact (execCmp_cases h).elim (·.readReg_eq j) fun ⟨_, _, _, _, _, _, e⟩ => by simp [e]
  | jeq r =>
    obtain hfault | ⟨_, _, _, rfl⟩ | ⟨_, _, _, rfl⟩ := execJeq_cases h
    · exact hfault.readReg_eq j
    · rfl
    · rfl
  | jne r =>
    obtain hfault | ⟨_, _, _, rfl⟩ | ⟨_, _, _, rfl⟩ := execJne_cases h
    · exact hfault.readReg_eq j
    · rfl
    · rfl
  | jmp r => exact (execJmp_cases h).elim (·.readReg_eq j) fun ⟨_, _, e⟩ => by simp [e]
  | hlt => rw [execHlt_cases h, readReg_halt]

/-! ### Memories in canonical form -/

/-- A listed cell is the one that is read, since addresses rise. -/
theorem readCells_of_mem {a : Nat} {v : Byte} {cells : List Host.Cell} (hp : cells.Pairwise fun c d => c.1 < d.1)
    (h : (a, v) ∈ cells) : readCells a cells = v := by
  induction cells with
  | nil => cases h
  | cons c rest ih =>
    obtain ⟨hlt, hrest⟩ := List.pairwise_cons.mp hp
    obtain rfl | hmem := List.mem_cons.mp h
    · exact if_pos rfl
    · exact (if_neg (hlt _ hmem).ne).trans (ih hrest hmem)

/-- A byte that is not the unlisted one is read from a listed cell. -/
theorem mem_of_readCells_ne_unlisted {a : Nat} {cells : List Host.Cell} (h : readCells a cells ≠ Memory.unlisted) :
    (a, readCells a cells) ∈ cells := by
  induction cells with
  | nil => exact absurd rfl h
  | cons c rest ih =>
    obtain ⟨b, w⟩ := c
    by_cases hb : b = a
    · simp [readCells, hb]
    · simp only [readCells, hb, if_false] at h ⊢
      exact List.mem_cons_of_mem _ (ih h)

/-- In canonical form what is listed is what is read: every address whose byte is not the unlisted one. -/
theorem mem_cells_iff {m : Memory} (h : m.wf) {a : Nat} {v : Byte} :
    (a, v) ∈ m.cells ↔ v ≠ Memory.unlisted ∧ ∃ b : Byte, b.toNat = a ∧ m.read b = v := by
  obtain ⟨hp, hall⟩ := h
  constructor
  · intro hmem
    obtain ⟨hlt, hv⟩ := hall _ hmem
    have ha : (BitVec.ofNat 8 a).toNat = a := by rw [BitVec.toNat_ofNat, Nat.mod_eq_of_lt hlt]
    exact ⟨hv, BitVec.ofNat 8 a, ha, by rw [Memory.read, ha, readCells_of_mem hp hmem]⟩
  · rintro ⟨hv, b, rfl, rfl⟩
    exact mem_of_readCells_ne_unlisted hv

theorem nodup_cells {m : Memory} (h : m.wf) : m.cells.Nodup := h.1.imp fun hlt he => hlt.ne (congrArg Prod.fst he)

/-- Settles O45: the two lists have the same cells, and rising addresses leave them one order. -/
theorem canonicalMemoriesThatReadAlikeAreEqual : Obligations.CanonicalMemoriesThatReadAlikeAreEqual := by
  intro m m' hm hm' hread
  have hperm : m.cells.Perm m'.cells := by
    rw [List.perm_ext_iff_of_nodup (nodup_cells hm) (nodup_cells hm')]
    rintro ⟨a, v⟩
    simp only [mem_cells_iff hm, mem_cells_iff hm', hread]
  have hcells : m.cells = m'.cells :=
    hperm.eq_of_pairwise (fun c d _ _ hcd hdc => absurd hcd hdc.asymm) hm.1 hm'.1
  cases m
  cases m'
  exact congrArg Memory.mk hcells

/-! ### Two instructions in sequence -/

/-- A two-byte instruction stands at pc when its bytes are read there. -/
theorem InstrAt.of_two_bytes {x y : Byte} (hbytes : encodeWith opc i = [x, y]) (hpc : s.pc.toNat ≤ 254)
    (hx : s.mem.read s.pc = x) (hy : ∀ a : Byte, a.toNat = s.pc.toNat + 1 → s.mem.read a = y) : InstrAt opc i s := by
  intro k b hb
  rw [hbytes] at hb
  match k with
  | 0 =>
    obtain rfl : x = b := Option.some.inj hb
    exact ⟨s.pc, rfl, hx⟩
  | 1 =>
    obtain rfl : y = b := Option.some.inj hb
    obtain ⟨a, ha⟩ := exists_nextPc (s := s) (w := 1) (by omega)
    rw [nextPc_eq_ok] at ha
    exact ⟨a, ha, hy a ha⟩
  | _ + 2 => cases hb

theorem SameMem.trans (h : SameMem s t) (h' : SameMem t u) : SameMem s u := fun a => (h' a).trans (h a)

theorem SameControl.trans (h : SameControl s t) (h' : SameControl t u) : SameControl s u := by
  obtain ⟨hstatus, hcause, hpc, hop⟩ := h
  obtain ⟨hstatus', hcause', hpc', hop'⟩ := h'
  exact ⟨hstatus'.trans hstatus, hcause'.trans hcause, hpc'.trans hpc, hop'.trans hop⟩

/-- Settles O46: LDI keeps the bytes of the PRN, and PRN reads the register LDI wrote. -/
theorem ldiThenPrnEmitsTheImmediate : Obligations.LdiThenPrnEmitsTheImmediate := by
  intro opc s r v d hopc hrun hpc hd hldi hop hreg
  obtain ⟨-, t, ht, heffect⟩ := ldiLoadsImmediate r v s
  rw [if_neg (by omega), if_neg (by omega), if_neg (by omega)] at heffect
  obtain ⟨hval, hregs, htpc, htfl, htmem, htout, htcontrol⟩ := heffect d hd
  have hprn : InstrAt opc (.prn r) t := .of_two_bytes rfl (by omega) (by rw [htmem, hop _ htpc]) fun a ha => by
    rw [htmem, hreg a (by omega)]
  obtain ⟨-, u, hu, heffect⟩ := prnEmitsRegister r t
  rw [if_neg (by omega), if_neg (by omega), if_neg (by omega)] at heffect
  obtain ⟨huout, huregs, hupc, hufl, humem, hucontrol⟩ := heffect d hd
  exact ⟨t, u, (cycle_of_instrAt hopc hrun hldi).trans ht,
    (cycle_of_instrAt hopc (htcontrol.1.trans hrun) hprn).trans hu,
    by rw [huout, htout, hval], (huregs d).trans hval, fun j hj => (huregs j).trans (hregs j hj), hufl.trans htfl,
    htmem.trans humem, by omega, htcontrol.trans hucontrol⟩

/-- Settles O47: PUSH keeps the bytes of the POP, and POP reads the slot PUSH wrote. -/
theorem pushThenPopRoundTrips : Obligations.PushThenPopRoundTrips := by
  intro opc s r r' d d' hopc hrun hpc hd hd' hd7 hd7' hpush hop hreg p hp hp2 hp3
  have hr7' : r'.toNat ≠ 7 := fun h => hd7' (Fin.ext (hd'.trans h))
  have hslot := pushAddress_eq_ok.mp hp
  have hplt := s.sp.isLt
  obtain ⟨-, t, ht, heffect⟩ := pushStoresBelowStackPointer r s
  rw [if_neg (by omega), if_neg (by omega), if_neg (by omega)] at heffect
  obtain ⟨-, hstore, htregs, htpc, htfl, htout, htcontrol⟩ := heffect d hd
  obtain ⟨-, htsp, htslot, htmem⟩ := hstore p hp
  rw [if_neg hd7] at htslot
  have hkept : ∀ a : Byte, a.toNat ≠ p.toNat → t.mem.read a = s.mem.read a := fun a ha =>
    htmem a fun h => ha (congrArg BitVec.toNat h)
  have hpop : InstrAt opc (.pop r') t :=
    .of_two_bytes rfl (by omega) (by rw [hkept _ (by omega), hop _ htpc]) fun a ha => by
      rw [hkept a (by omega), hreg a (by omega)]
  obtain ⟨-, u, hu, heffect⟩ := popLoadsFromStackPointer r' t
  rw [if_neg hr7', htsp, if_neg (by omega), if_neg (by omega), if_neg (by omega)] at heffect
  obtain ⟨hload, -, huregs, hupc, hufl, humem, huout, hucontrol⟩ := heffect d' hd'
  obtain ⟨huval, husp⟩ := hload hd7'
  have hsp : u.sp = s.sp := BitVec.eq_of_toNat_eq (husp.trans hslot)
  refine ⟨t, u, (cycle_of_instrAt hopc hrun hpush).trans ht,
    (cycle_of_instrAt hopc (htcontrol.1.trans hrun) hpop).trans hu, huval.trans htslot, hsp, fun j hj => ?_,
    (humem p).trans htslot, fun a ha => (humem a).trans (htmem a ha), by omega, hufl.trans htfl, huout.trans htout,
    htcontrol.trans hucontrol⟩
  by_cases h7 : j = 7
  · rw [h7]
    exact hsp
  · rw [huregs j hj h7, htregs j h7]

/-- Settles O48: the byte below the old SP is the return address, and RET's new SP is the old one. -/
theorem callThenRetResumesAfterTheCall : Obligations.CallThenRetResumesAfterTheCall := by
  intro s t v r _ h hf hsp hslot
  obtain ⟨_, ra, a, -, hra, ha, rfl⟩ := of_not_faulted hf (execCall_cases h)
  have hvsp : v.sp = a := by rw [hsp, sp_withPc, sp_store, sp_writeReg, if_pos rfl]
  have hlt := s.sp.isLt
  obtain ⟨-, u, hu, heffect⟩ := retPopsProgramCounter v
  rw [hvsp, if_neg (by omega)] at heffect
  obtain ⟨hupc, husp, -⟩ := heffect
  refine ⟨u, hu, ?_, BitVec.eq_of_toNat_eq (husp.trans ha)⟩
  rw [← hsp, hvsp, withPc_mem, store_mem, read_write_same] at hslot
  rw [hupc, hslot, hra]

/-- Settles O49: the opcode fetched is the byte at pc, which is the byte just written. -/
theorem storedByteIsFetchedNext : Obligations.StoredByteIsFetchedNext := by
  intro i s t a _ _ h hf ha htpc
  rw [fetchByte_zero, htpc]
  refine ⟨?_, ?_⟩
  · rintro r rfl d hd
    obtain ⟨e, a', n, he, ha', -, rfl⟩ := of_not_faulted hf (execPush_cases h)
    obtain rfl : a' = a := Except.ok.inj ((pushAddress_eq_ok.mpr ha').symm.trans ha)
    obtain rfl : d = e := Fin.ext (hd.trans he.symm)
    rw [withPc_mem, store_mem, read_write_same, readReg_writeReg]
  · rintro r rfl
    obtain ⟨_, ra, a', -, hra, ha', rfl⟩ := of_not_faulted hf (execCall_cases h)
    obtain rfl : a' = a := Except.ok.inj ((pushAddress_eq_ok.mpr ha').symm.trans ha)
    rw [withPc_mem, store_mem, read_write_same, ← hra, BitVec.ofNat_toNat, BitVec.setWidth_eq]

/-! ### Placing a word -/

/-- Where three bytes fit, placing them is three stores. -/
theorem placeBytes_three (hpc : s.pc.toNat ≤ 253) (x y z : Byte) :
    ∃ a b : Byte, a.toNat = s.pc.toNat + 1 ∧ b.toNat = s.pc.toNat + 2 ∧
      placeBytes s 0 [x, y, z] = ((s.store s.pc x).store a y).store b z := by
  obtain ⟨a, ha⟩ := exists_nextPc (s := s) (w := 1) (by omega)
  obtain ⟨b, hb⟩ := exists_nextPc (s := s) (w := 2) (by omega)
  have h0 : formAddress (s.pc.toNat + (0 : Nat)) = .ok s.pc := formAddress_eq_ok.mpr rfl
  refine ⟨a, b, nextPc_eq_ok.mp ha, nextPc_eq_ok.mp hb, ?_⟩
  rw [nextPc] at ha hb
  simp only [placeBytes, store_pc, h0, ha, hb, Nat.zero_add, Nat.reduceAdd]

/-- The bytes of three stores at pc, pc + 1 and pc + 2 are what is fetched. -/
theorem fetchBytes_three_stores {a b x y z : Byte} (ha : a.toNat = s.pc.toNat + 1) (hb : b.toNat = s.pc.toNat + 2) :
    fetchBytes (((s.store s.pc x).store a y).store b z) = [x, y, z] := by
  have hpa : s.pc ≠ a := fun h => by simp [h] at ha
  have hpb : s.pc ≠ b := fun h => by simp [h] at hb
  have hab : a ≠ b := fun h => by rw [h] at ha; omega
  have h1 : fetchByte (((s.store s.pc x).store a y).store b z) 1 = some y :=
    fetchByte_eq_some.mpr ⟨a, ha, by simp [read_write, hab]⟩
  have h2 : fetchByte (((s.store s.pc x).store a y).store b z) 2 = some z :=
    fetchByte_eq_some.mpr ⟨b, hb, by simp⟩
  rw [fetchBytes_eq_cons]
  simp [h1, h2, read_write, hpa, hpb]

theorem decodeTableWord_eq_some {nbits w : Nat} (h : decodeTableWord nbits w = some i) :
    ∃ rest, decode (tableBytes nbits w) = .ok (i, rest) := by
  rw [decodeTableWord] at h
  cases hd : decode (tableBytes nbits w) with
  | ok p =>
    simp only [hd, Option.some.injEq] at h
    exact ⟨p.2, by rw [← h]⟩
  | error e => simp [hd] at h

/-- Placing a word is setting the status and storing its three bytes. -/
theorem withFetchWord_eq_stores {nbits w : Nat} (hpc : s.pc.toNat ≤ 253) :
    ∃ a b : Byte, a.toNat = s.pc.toNat + 1 ∧ b.toNat = s.pc.toNat + 2 ∧
      s.withFetchWord nbits w =
        ((({ s with status := .running } : State).store s.pc (tableByte nbits w 0)).store a
          (tableByte nbits w 1)).store b (tableByte nbits w 2) :=
  placeBytes_three (s := { s with status := .running }) hpc _ _ _

/-- Settles O30: placing is three stores, which the fetch reads back and which leave every other cell alone. -/
theorem placedWordRunsNext : Obligations.PlacedWordRunsNext := by
  intro s nbits w i hpc hd
  obtain ⟨rest, hd⟩ := decodeTableWord_eq_some hd
  obtain ⟨a, b, ha, hb, hplaced⟩ := withFetchWord_eq_stores (nbits := nbits) (w := w) hpc
  have hfetch : fetchBytes (s.withFetchWord nbits w) = tableBytes nbits w := by
    rw [hplaced]
    exact fetchBytes_three_stores ha hb
  refine ⟨stepRunsTheDecodedInstruction _ i rest (by rw [hplaced]; rfl) (by rw [hfetch, hd]), ?_⟩
  rw [hplaced]
  refine ⟨rfl, rfl, rfl, rfl, rfl, rfl, rfl, rfl, fun c hc => ?_⟩
  have hcp : c ≠ s.pc := by rintro rfl; omega
  have hca : c ≠ a := by rintro rfl; omega
  have hcb : c ≠ b := by rintro rfl; omega
  simp only [store_mem, read_write_of_ne _ hcb, read_write_of_ne _ hca, read_write_of_ne _ hcp]

end Sys2Proof.Machine
